-- ==== Sys2Proof/Word.lean ====
section
/-! DEFINITION. The widths the spec names (00_scope.md R8, 20_memory.md R46): a byte, a nibble, an int16
sample, a u32 word. Every other quantity of the spec is a mathematical integer (R8) and is `Nat` or `Int`. -/

namespace Sys2Proof

/-- u8: one byte of IN, OUT or the command port. -/
abbrev Byte := BitVec 8

/-- A 4-bit ADPCM code (40_sample_codec.md R81): bit 3 the sign, bits 2..0 the magnitude. -/
abbrev Nibble := BitVec 4

/-- An int16 sample (10_state.md R39); its value is `BitVec.toInt`. -/
abbrev Sample := BitVec 16

/-- u32: the header word, the length word, the status word (30_encoding.md R55, R70). -/
abbrev Word := BitVec 32

end Sys2Proof
end

