-- ==== Sys2Proof/Config.lean ====
section
/-! DEFINITION. What an implementation fixes: the four parameters of 00_scope.md R7 with the defaults the
spec chooses, the place of the command port (20_memory.md R49), and the one value the spec never defines. -/

namespace Sys2Proof

/-- `STEP_INDEX_POLICY` (R7, D13): what a chunk header step index outside 0..88 does. -/
inductive StepIndexPolicy where
  | reject
  | clamp
  deriving DecidableEq, Repr

/-- `TAIL_POLICY` (R7, D14): what container bytes after the last whole interleave block do on decode. -/
inductive TailPolicy where
  | fault
  | ignore
  deriving DecidableEq, Repr

/-- `PAD_POLICY` (R7, D15): what a sample window that runs past a stream's end does on encode. -/
inductive PadPolicy where
  | fault
  | padSilence
  | padLast
  deriving DecidableEq, Repr

/-- The parameters of R7. "A model takes each as an argument": they stand in `State.params`, every statement is
made for all of them, and no step changes them (70_reset_and_hazards.md R182). -/
structure Params where
  stepIndexPolicy : StepIndexPolicy
  tailPolicy : TailPolicy
  padPolicy : PadPolicy
  /-- `INITIAL_STEP_INDEX`, legal values 0..88 (D10). -/
  initialStepIndex : Fin 89
  deriving DecidableEq, Repr

/-- The defaults of R7. -/
def Params.default : Params where
  stepIndexPolicy := .reject
  tailPolicy := .fault
  padPolicy := .fault
  initialStepIndex := 0

/-- `PORT_ADDRESS` (R49, D1): where the platform maps the command port. "No rule depends on it." -/
opaque Config.portAddress : Nat

/-- FREE VALUE (log entry 3): what a read of STEP_TABLE outside 0..88 gives. 40_sample_codec.md R85: "`STEP_TABLE[idx]` is
never read out of range", so only states that no run reaches use it. -/
opaque Config.stepBeyondTable : Nat → Nat

end Sys2Proof
end

