-- ==== Sys2Proof/Machine/State.lean ====
section
/-! DEFINITION. Everything the block holds between two steps (10_state.md R20, R33), the response frame, and the host: the
other agent of 00_scope.md R17. -/

namespace Sys2Proof.Machine

/-- The six error kinds (60_exceptions.md R160). -/
inductive ErrKind where
  | malformedChunk
  | truncatedContainer
  | invalidStepIndex
  | sampleCountMismatch
  | illegalCommand
  | configError
  deriving DecidableEq, Repr

/-- A channel state (R27): the predictor, stored in an int32, and the step index, stored in an int16. The legal values are
-32768..32767 and 0..88 (R28); their values are `BitVec.toInt`. -/
structure ChannelState where
  pred : BitVec 32
  idx : BitVec 16
  deriving DecidableEq, Repr

/-- The name of a slot: stream 0..5, channel 0..1 (R26). -/
structure SlotId where
  stream : Fin 6
  chan : Fin 2
  deriving DecidableEq, Repr

/-- The slot file (R26): slot[s,c] is the entry 2·s + c. Read and written by `readSlot` and `writeSlot` only. -/
abbrev SlotFile := Vector ChannelState 12

/-- The configuration register CFG (R21): six bits in four fields. -/
structure Cfg where
  valid : Bool
  mono : Bool
  /-- 0: 44100 Hz; 1: 22050 Hz. -/
  rate : Bool
  scount : BitVec 3
  deriving DecidableEq, Repr

/-- A response (30_encoding.md R70): the status word ST and the payload OUT. The length word M is |OUT| and is not stored apart. -/
structure Response where
  status : Word
  out : List Byte
  deriving DecidableEq, Repr

/-- What the host can do (70_reset_and_hazards.md R193). -/
inductive HostMove where
  /-- Send these bytes on the command port: part of a frame, or a whole one. -/
  | send (bytes : List Byte)
  /-- Read the whole pending response. -/
  | readResponse
  /-- Assert reset (R180, R181). -/
  | reset
  deriving DecidableEq, Repr

/-- The host (00_scope.md R17): the moves it has still to make, and the responses it has read, oldest first (R192). -/
structure HostAgent where
  todo : List HostMove
  seen : List Response
  deriving DecidableEq, Repr

/-- Nothing stops the block with a fault. 60_exceptions.md R174: "An error is never a hang. After a raise the block accepts the
next command at once", so every error of the spec is a next state (`raise` in Machine/Ops.lean). No meaning raises a fault;
having none is what the spec says, and it is safe (log entry 6). -/
inductive Fault where
  deriving DecidableEq, Repr

/-- Why a step has no meaning. -/
inductive Refusal where
  /-- An instruction not modelled yet: raised by an arm of `exec` only, none of which stands. Safe: nothing is claimed of it. -/
  | notModelled (mnemonic : String)
  /-- 70_reset_and_hazards.md R184: "The spec gives no meaning to a frame sent before the previous response has been read. A
  model gives such a host no move". Raised by `step` when the host sends too early, never by a command. Safe in the model; it is
  an assumption about the host (log entry 5). -/
  | frameBeforeResponseRead
  deriving DecidableEq, Repr

/-- The state. `params` is the model's argument (00_scope.md R7), `host` the other agent; the rest is the block: CFG, the slot
file, ERR (R20) and the command port (R33). -/
structure State where
  /-- The parameters of R7, fixed for the life of the model (R182). -/
  params : Params
  /-- CFG (R21). GEOM is computed from it and holds no storage (R23). -/
  cfg : Cfg
  /-- The channel-state file (R26). -/
  slots : SlotFile
  /-- ERR (R30): bit k-1 is set when a command raises the error with code k. -/
  err : Byte
  /-- Command port: the bytes received and not yet consumed (R181, R185). -/
  rx : List Byte
  /-- IN, the payload of the command in progress (20_memory.md R40); empty between commands. -/
  inp : List Byte
  /-- Command port: the response not yet read (R33, R184); its payload is OUT. -/
  tx : Option Response
  /-- The host. -/
  host : HostAgent
  deriving DecidableEq, Repr

/-- The state a channel state is constructed in (R33, 43_state_access.md R150): (0, INITIAL_STEP_INDEX). -/
def freshChannelState (p : Params) : ChannelState where
  pred := 0
  idx := BitVec.ofNat 16 p.initialStepIndex.val

/-- Reset, for any parameters and any host (R33, R180, R181). -/
def State.afterReset (p : Params) (h : HostAgent) : State where
  params := p
  cfg := { valid := false, mono := false, rate := false, scount := 0 }
  slots := Vector.replicate 12 (freshChannelState p)
  err := 0
  rx := []
  inp := []
  tx := none
  host := h

/-- The machine right after reset, under the default parameters of R7, with a host that has nothing to do. -/
def State.reset : State := State.afterReset Params.default { todo := [], seen := [] }

end Sys2Proof.Machine
end

