-- ==== Sys2Proof/Machine/Geometry.lean ====
section
/-! DEFINITION. The geometry calculator (42_interleave.md R120), the chunk-to-byte layout (R123) and the round-robin dispatcher
(R124). GEOM is computed from CFG on demand (10_state.md R23); every command that uses it has first checked CFG.valid (R22). -/

namespace Sys2Proof.Machine

/-- GEOM (10_state.md R23). -/
structure Geometry where
  frequency : Nat
  channelCount : Nat
  chunkSize : Nat
  interleaveSize : Nat
  chunksPerInterleave : Nat
  payloadBytes : Nat
  /-- D: decoded samples per chunk. -/
  chunkSamples : Nat
  blockSamples : Nat
  blockBytes : Nat
  streamCount : Nat
  deriving DecidableEq, Repr

/-- `channel_count` (R120). -/
def channelCount (c : Cfg) : Nat := if c.mono then 1 else 2

/-- `frequency` (R120). -/
def frequency (c : Cfg) : Nat := if c.rate then 22050 else 44100

/-- `chunk_size` (R120). -/
def chunkSize (c : Cfg) : Nat := if c.rate then 512 else 1024

/-- `interleave_size` (R120). -/
def interleaveSize : Nat := 65536

/-- `chunks_per_interleave` (R120). -/
def chunksPerInterleave (c : Cfg) : Nat := interleaveSize / chunkSize c

/-- `payload_bytes` (R120). -/
def payloadBytes (c : Cfg) : Nat := chunkSize c - 4

/-- `D` (R120). -/
def chunkSamples (c : Cfg) : Nat := 2 * payloadBytes c + 1

/-- `block_samples` (R120). -/
def blockSamples (c : Cfg) : Nat := chunksPerInterleave c * chunkSamples c

/-- `block_bytes` (R120). -/
def blockBytes (c : Cfg) : Nat := channelCount c * interleaveSize

/-- `stream_count` (R120). -/
def streamCount (c : Cfg) : Nat := c.scount.toNat

/-- All of GEOM. -/
def geometry (c : Cfg) : Geometry where
  frequency := frequency c
  channelCount := channelCount c
  chunkSize := chunkSize c
  interleaveSize := interleaveSize
  chunksPerInterleave := chunksPerInterleave c
  payloadBytes := payloadBytes c
  chunkSamples := chunkSamples c
  blockSamples := blockSamples c
  blockBytes := blockBytes c
  streamCount := streamCount c

/-- `offset(i, c, k)` (R123): where chunk k of channel c of block i begins in a container. -/
def chunkOffset (g : Geometry) (i c k : Nat) : Nat := i * g.blockBytes + c * g.interleaveSize + k * g.chunkSize

/-- `owner(i) = i mod S` (R124). -/
def blockOwner (g : Geometry) (i : Nat) : Nat := i % g.streamCount

/-- `seq(i) = i div S` (R124). -/
def blockSeq (g : Geometry) (i : Nat) : Nat := i / g.streamCount

end Sys2Proof.Machine
end

