-- ==== Sys2Proof/Syntax.lean ====
section
/-! DEFINITION. The twelve commands (30_encoding.md R60), each with the operands its header word carries (R56, R62 to R66).
The payload IN is no operand of the header: it is the command's memory (00_scope.md R13) and stands in `State.inp`. -/

namespace Sys2Proof

/-- One constructor per row of spec/opcode_table.json. Numbers are `Nat` and bounded by `Instr.wf`; bit fields are `Bool` or `BitVec`. -/
inductive Instr where
  /-- CONFIGURE (R138): MONO = H[0], RATE = H[1], SCOUNT = H[6:4]. -/
  | configure (mono rate : Bool) (scount : Nat)
  /-- GEOMETRY (R139). -/
  | geometry
  /-- LOCATE (R140): channel c = H[19:16], chunk k = H[15:0]. -/
  | locate (chan chunk : Nat)
  /-- INIT_STATES (R150). -/
  | initStates
  /-- WRITE_STATE (R151): slot (s, c) = H[23:20], H[19:16]; predictor H[15:0], an int16. -/
  | writeState (stream chan : Nat) (pred : Sample)
  /-- READ_STATE (R152): slot (s, c). -/
  | readState (stream chan : Nat)
  /-- EXPAND (R88): slot (s, c), NIB = H[3:0]. -/
  | expand (stream chan : Nat) (nib : Nibble)
  /-- COMPRESS (R89): slot (s, c), sample H[15:0], an int16. -/
  | compress (stream chan : Nat) (sample : Sample)
  /-- DECODE_CHUNK (R110). -/
  | decodeChunk
  /-- ENCODE_CHUNK (R111): slot (s, c). -/
  | encodeChunk (stream chan : Nat)
  /-- DECODE_CONTAINER (R141). -/
  | decodeContainer
  /-- ENCODE_CONTAINER (R142). -/
  | encodeContainer
  deriving DecidableEq, Repr

end Sys2Proof
end

