-- ==== Sys2Proof/WellFormed.lean ====
section
/-! DEFINITION. Which instructions have an encoding: every operand fits its header field (30_encoding.md R56, R61). A value that
fits its field but is illegal (a slot with s > 5, SCOUNT = 7) is well formed: it can be encoded, and the command raises (R73, R138). -/

namespace Sys2Proof

/-- STREAM and CHAN are four bits each (R56). -/
abbrev slotFieldsFit (stream chan : Nat) : Prop := stream < 16 ∧ chan < 16

/-- Every operand fits the bits that 30_encoding.md R61 gives it. -/
abbrev Instr.wf : Instr → Prop
  | .configure _ _ scount => scount < 8
  | .geometry => True
  | .locate chan chunk => chan < 16 ∧ chunk < 65536
  | .initStates => True
  | .writeState stream chan _ => slotFieldsFit stream chan
  | .readState stream chan => slotFieldsFit stream chan
  | .expand stream chan _ => slotFieldsFit stream chan
  | .compress stream chan _ => slotFieldsFit stream chan
  | .decodeChunk => True
  | .encodeChunk stream chan => slotFieldsFit stream chan
  | .decodeContainer => True
  | .encodeContainer => True

end Sys2Proof
end

