-- ==== Sys2Proof/Decode.lean ====
section
/-! DEFINITION. From bytes to commands and back: the little-endian helpers (00_scope.md R12), the command frame
(30_encoding.md R55), the match and mask table (R61), the decoder (R69) and the encoder (R77). -/

namespace Sys2Proof

/-! ### Little-endian numbers (R12, R42) -/

/-- The `n` low bytes of `v`, least significant first: `bytes16`, `bytes32`, `bytes64` of R12 for n = 2, 4, 8. -/
def leBytes : Nat → Nat → List Byte
  | 0, _ => []
  | n + 1, v => BitVec.ofNat 8 v :: leBytes n (v / 256)

/-- The little-endian unsigned value of a byte sequence: `le16`, `le32`, `le64` of R12. -/
def leNat : List Byte → Nat
  | [] => 0
  | b :: bs => b.toNat + 256 * leNat bs

/-- `B[off..off+len)` (R12). -/
def slice (B : List Byte) (off len : Nat) : List Byte := (B.drop off).take len

/-- `MemRead(off, len)` (R13): the little-endian value of `B[off..off+len)`. Every rule checks the bound before it reads. -/
def memRead (B : List Byte) (off len : Nat) : Nat := leNat (slice B off len)

/-! ### The command frame (R55) -/

/-- A frame: H, N, IN, in byte order. -/
def encodeFrame (h : Word) (payload : List Byte) : List Byte :=
  leBytes 4 h.toNat ++ leBytes 4 payload.length ++ payload

/-- Cut the first complete frame off the bytes the port has received (R55, R72): the header word, the N payload bytes, and the
bytes after the frame. `none` while fewer than 8 + N bytes have arrived (70_reset_and_hazards.md R185). -/
def parseFrame (rx : List Byte) : Option (Word × List Byte × List Byte) :=
  if rx.length < 8 then none
  else if rx.length < 8 + memRead rx 4 4 then none
  else some (BitVec.ofNat 32 (memRead rx 0 4), slice rx 8 (memRead rx 4 4), rx.drop (8 + memRead rx 4 4))

/-! ### The opcode map (R60, R61) -/

/-- One row of R61. -/
structure Row where
  pattern : Word
  mask : Word
  deriving DecidableEq, Repr

def rowConfigure : Row := ⟨0x01000000, 0xFFFFFF8C⟩
def rowGeometry : Row := ⟨0x02000000, 0xFFFFFFFF⟩
def rowLocate : Row := ⟨0x03000000, 0xFFF00000⟩
def rowInitStates : Row := ⟨0x04000000, 0xFFFFFFFF⟩
def rowWriteState : Row := ⟨0x05000000, 0xFF000000⟩
def rowReadState : Row := ⟨0x06000000, 0xFF00FFFF⟩
def rowExpand : Row := ⟨0x10000000, 0xFF00FFF0⟩
def rowCompress : Row := ⟨0x11000000, 0xFF000000⟩
def rowDecodeChunk : Row := ⟨0x20000000, 0xFFFFFFFF⟩
def rowEncodeChunk : Row := ⟨0x21000000, 0xFF00FFFF⟩
def rowDecodeContainer : Row := ⟨0x30000000, 0xFFFFFFFF⟩
def rowEncodeContainer : Row := ⟨0x31000000, 0xFFFFFFFF⟩

/-- The table of R61, in its order. -/
def opcodeRows : List Row :=
  [rowConfigure, rowGeometry, rowLocate, rowInitStates, rowWriteState, rowReadState,
   rowExpand, rowCompress, rowDecodeChunk, rowEncodeChunk, rowDecodeContainer, rowEncodeContainer]

/-- H selects a row exactly when `H & mask = match` (R61). -/
def Row.selects (r : Row) (h : Word) : Bool := h &&& r.mask == r.pattern

/-! ### Field cutting (R9, R56, R79): "Nothing is scaled or shifted." -/

/-- `H[lo+len-1 : lo]`, zero-extended. -/
def field (h : Word) (lo len : Nat) : Nat := (h.extractLsb' lo len).toNat

/-- STREAM = H[23:20]. -/
def streamField (h : Word) : Nat := field h 20 4

/-- CHAN = H[19:16]. -/
def chanField (h : Word) : Nat := field h 16 4

/-- IMM = H[15:0]; read as an int16 it is `sext_16(H[15:0])`. -/
def immField (h : Word) : Sample := h.extractLsb' 0 16

/-- Why a header word is no command (R72, R75). Both raise IllegalCommand. -/
inductive DecodeReject where
  /-- Fewer than the four bytes of a header word. -/
  | incompleteHeader
  /-- The OPC field is one of the reserved values of R75. -/
  | reservedOpcode
  /-- A must-be-zero field is not zero (R56). -/
  | mustBeZero
  deriving DecidableEq, Repr

/-- OPC has a row of R61: it is not one of the reserved values of R75. -/
def opcodeKnown (h : Word) : Bool := opcodeRows.any fun r => r.pattern >>> 24 == h >>> 24

/-- The decode procedure of R69, total on every header word. -/
def decode (h : Word) : Except DecodeReject Instr :=
  if rowConfigure.selects h then .ok (.configure (h.getLsbD 0) (h.getLsbD 1) (field h 4 3))
  else if rowGeometry.selects h then .ok .geometry
  else if rowLocate.selects h then .ok (.locate (chanField h) (field h 0 16))
  else if rowInitStates.selects h then .ok .initStates
  else if rowWriteState.selects h then .ok (.writeState (streamField h) (chanField h) (immField h))
  else if rowReadState.selects h then .ok (.readState (streamField h) (chanField h))
  else if rowExpand.selects h then .ok (.expand (streamField h) (chanField h) (h.extractLsb' 0 4))
  else if rowCompress.selects h then .ok (.compress (streamField h) (chanField h) (immField h))
  else if rowDecodeChunk.selects h then .ok .decodeChunk
  else if rowEncodeChunk.selects h then .ok (.encodeChunk (streamField h) (chanField h))
  else if rowDecodeContainer.selects h then .ok .decodeContainer
  else if rowEncodeContainer.selects h then .ok .encodeContainer
  else .error (if opcodeKnown h then .mustBeZero else .reservedOpcode)

/-- Decode the command that a byte sequence begins with; only the header word matters (R69, R76). -/
def decodeBytes (bs : List Byte) : Except DecodeReject Instr :=
  if bs.length < 4 then .error .incompleteHeader else decode (BitVec.ofNat 32 (memRead bs 0 4))

/-! ### The encoder (R61's pattern column, R77) -/

/-- The header word of a command whose operands are STREAM, CHAN and IMM (R56). -/
def slotHeader (opc : Byte) (stream chan : Nat) (imm : BitVec 16) : Word :=
  opc ++ BitVec.ofNat 4 stream ++ BitVec.ofNat 4 chan ++ imm

/-- The header word of a well-formed instruction, written field by field, bit 31 first, as R61's pattern column writes it. -/
def encode : Instr → Word
  | .configure mono rate scount =>
    0x01#8 ++ 0#8 ++ 0#8 ++ 0#1 ++ BitVec.ofNat 3 scount ++ 0#2 ++ BitVec.ofBool rate ++ BitVec.ofBool mono
  | .geometry => 0x02000000
  | .locate chan chunk => slotHeader 0x03 0 chan (BitVec.ofNat 16 chunk)
  | .initStates => 0x04000000
  | .writeState stream chan pred => slotHeader 0x05 stream chan pred
  | .readState stream chan => slotHeader 0x06 stream chan 0
  | .expand stream chan nib => slotHeader 0x10 stream chan (0#12 ++ nib)
  | .compress stream chan sample => slotHeader 0x11 stream chan sample
  | .decodeChunk => 0x20000000
  | .encodeChunk stream chan => slotHeader 0x21 stream chan 0
  | .decodeContainer => 0x30000000
  | .encodeContainer => 0x31000000

/-! ### The table's bit numbering -/

/-- The frame whose bits are `w`, bit 0 the least significant bit of the first byte of H, every bit from `nbits` on zero: the
header word, the length word N that those bits hold, and N payload bytes. -/
def tableFrame (nbits w : Nat) : List Byte :=
  leBytes (8 + (w % 2 ^ nbits) / 2 ^ 32 % 2 ^ 32) (w % 2 ^ nbits)

/-- The instruction the decoder reads from a table word. -/
def decodeTableWord (nbits w : Nat) : Option Instr := (decodeBytes (tableFrame nbits w)).toOption

end Sys2Proof
end

