-- ==== Sys2Proof/Machine/Flags.lean ====
section
/-! DEFINITION. The block has no condition flags (10_state.md R25). What it reports instead: the error codes (60_exceptions.md
R160), the bits of the sticky register ERR (R30) and the status word (30_encoding.md R71). -/

namespace Sys2Proof.Machine

/-- The code of an error kind (60_exceptions.md R160). -/
def errorCode : ErrKind → Nat
  | .malformedChunk => 1
  | .truncatedContainer => 2
  | .invalidStepIndex => 3
  | .sampleCountMismatch => 4
  | .illegalCommand => 5
  | .configError => 6

/-- The ERR bit of an error kind: `1 << (code - 1)` (10_state.md R30). -/
def errBit (k : ErrKind) : Byte := 1#8 <<< (errorCode k - 1)

/-- The status word (30_encoding.md R71): bits 31:16 zero, ERRS in 15:8, CODE in 7:0. -/
def statusWord (code : Nat) (errs : Byte) : Word := 0#16 ++ errs ++ BitVec.ofNat 8 code

end Sys2Proof.Machine
end

