-- ==== Sys2Proof/Machine/Ops.lean ====
section
/-! DEFINITION. The shared operations: the slot file's accessors, taking an error (the block's only exception), completing a
command, and the walk that threads a state while it emits. There is no return from an error: nothing is entered
(60_exceptions.md R167). -/

namespace Sys2Proof.Machine

/-! ### The slot file (10_state.md R26) -/

/-- The place of slot[s,c] in the file. -/
def SlotId.index (id : SlotId) : Fin 12 := ⟨2 * id.stream.val + id.chan.val, by omega⟩

/-- `slot[s,c]`. -/
def readSlot (f : SlotFile) (id : SlotId) : ChannelState := f[id.index.val]

/-- `slot[s,c] <- v`. -/
def writeSlot (f : SlotFile) (id : SlotId) (v : ChannelState) : SlotFile := f.set id.index.val v

/-- Every slot holds `v` (43_state_access.md R150). -/
def fillSlots (v : ChannelState) : SlotFile := Vector.replicate 12 v

/-- All twelve slot names, stream by stream. -/
def allSlots : List SlotId :=
  [⟨0, 0⟩, ⟨0, 1⟩, ⟨1, 0⟩, ⟨1, 1⟩, ⟨2, 0⟩, ⟨2, 1⟩, ⟨3, 0⟩, ⟨3, 1⟩, ⟨4, 0⟩, ⟨4, 1⟩, ⟨5, 0⟩, ⟨5, 1⟩]

/-- Slots s < S, c < cc become `v`, the others stay (42_interleave.md R135). -/
def writeUsedSlots (f : SlotFile) (streams channels : Nat) (v : ChannelState) : SlotFile :=
  (allSlots.filter fun id => id.stream.val < streams && id.chan.val < channels).foldl
    (fun g id => writeSlot g id v) f

/-! ### Ending a command -/

/-- The command in progress ends: the response becomes pending and IN is discarded (20_memory.md R40). -/
def respond (r : Response) (s : State) : State := { s with tx := some r, inp := [] }

/-- The state a raise leaves (60_exceptions.md R165, R166): the kind's bit is set in ERR, the response carries its code and the
new ERR and an empty payload, and CFG, the slot file and everything else are unchanged. -/
def raised (k : ErrKind) (s : State) : State :=
  respond { status := statusWord (errorCode k) (s.err ||| errBit k), out := [] } { s with err := s.err ||| errBit k }

/-- TAKING AN ERROR (R14, R165): a next state, from which the block accepts the next command at once (R174). -/
def raise (k : ErrKind) (s : State) : Host.Outcome State Fault Refusal := .next (raised k s)

/-- The state a command that succeeds leaves: CODE = 0, ERRS = ERR, which is unchanged, and OUT (30_encoding.md R70, R71). -/
def succeeded (out : List Byte) (s : State) : State := respond { status := statusWord 0 s.err, out := out } s

/-- What a command's rule computes: the kind it raises, or its new state and OUT. -/
abbrev Effect := Except ErrKind (State × List Byte)

/-- End a command (R14, R165): on a raise the state is the one BEFORE the command, but for ERR and the response. -/
def complete (s : State) : Effect → Host.Outcome State Fault Refusal
  | .error k => raise k s
  | .ok (t, out) => .next (succeeded out t)

/-! ### Pieces of pseudocode (00_scope.md R14, R15) -/

/-- `if not p: raise k`. -/
def require (p : Bool) (k : ErrKind) : Except ErrKind Unit := if p then .ok () else .error k

/-- `for a in as` where each turn may raise: the results in order, or the first error. -/
def tryMap {α β : Type} (f : α → Except ErrKind β) : List α → Except ErrKind (List β)
  | [] => .ok []
  | a :: as =>
    match f a with
    | .error k => .error k
    | .ok b =>
      match tryMap f as with
      | .error k => .error k
      | .ok bs => .ok (b :: bs)

/-- `for a in as` where each turn moves a state on and emits: the last state and everything emitted, in order. -/
def emitOver {σ α β : Type} (f : σ → α → σ × List β) : σ → List α → σ × List β
  | st, [] => (st, [])
  | st, a :: as =>
    let (st1, out1) := f st a
    let (st2, out2) := emitOver f st1 as
    (st2, out1 ++ out2)

end Sys2Proof.Machine
end

