-- ==== Sys2Proof/Machine/Operands.lean ====
section
/-! DEFINITION. Every operand form: the slot operand (30_encoding.md R57, R73), the fixed payload length (R59), GEOM behind its
validity check (10_state.md R22), samples in IN and OUT (20_memory.md R44), and ENCODE_CONTAINER's records (R67). -/

namespace Sys2Proof.Machine

/-- A slot operand: s > 5 or c > 1 raises IllegalCommand, whatever CFG holds (R73). -/
def slotOperand (stream chan : Nat) : Except ErrKind SlotId :=
  if h : stream ≤ 5 ∧ chan ≤ 1 then .ok ⟨⟨stream, by omega⟩, ⟨chan, by omega⟩⟩ else .error .illegalCommand

/-- A fixed-size command's payload length check (R59). -/
def payloadIs (n : Nat) (s : State) : Except ErrKind Unit := require (s.inp.length == n) .illegalCommand

/-- GEOM, or ConfigError while `CFG.valid` = 0 (10_state.md R22). -/
def configured (s : State) : Except ErrKind Geometry := do
  require s.cfg.valid .configError
  return geometry s.cfg

/-- `bytes16(x)` (00_scope.md R12). -/
def bytes16 (x : Sample) : List Byte := leBytes 2 x.toNat

/-- The samples of an even byte sequence: sample k is `sext_16(le16(B, 2k))` (20_memory.md R44). -/
def samplesOf : List Byte → List Sample
  | b0 :: b1 :: bs => BitVec.ofNat 16 (leNat [b0, b1]) :: samplesOf bs
  | _ => []

/-- The bytes of a sample sequence, sample 0 first. -/
def bytesOf (xs : List Sample) : List Byte := xs.flatMap bytes16

/-- ENCODE_CONTAINER's records (R67): S times a u32 length and that many bytes, ending exactly at the end of IN. -/
def parseRecords : Nat → List Byte → Except ErrKind (List (List Byte))
  | 0, rest => if rest.isEmpty then .ok [] else .error .illegalCommand
  | n + 1, rest =>
    if rest.length < 4 then .error .illegalCommand
    else if rest.length < 4 + memRead rest 0 4 then .error .illegalCommand
    else
      match parseRecords n (rest.drop (4 + memRead rest 0 4)) with
      | .error k => .error k
      | .ok ps => .ok (slice rest 4 (memRead rest 0 4) :: ps)

end Sys2Proof.Machine
end

