-- ==== Sys2Proof/Machine/SampleCodec.lean ====
section
/-! DEFINITION. The sample codec (40_sample_codec.md): `expand_nibble`, `compress_sample` and the step-index state machine they
share, and the two commands that expose them, EXPAND and COMPRESS. All sums are in ℤ and narrowed once, at the end (R8). -/

namespace Sys2Proof.Machine

/-! ### Shared definitions -/

/-- `clip16` (00_scope.md R11). -/
def clip16 (v : Int) : Int := max (-32768) (min 32767 v)

/-- `clampIdx` (00_scope.md R11). -/
def clampIdx (v : Int) : Int := max 0 (min 88 v)

/-- `STEP_TABLE[idx]` (10_state.md R31); outside 0..88, which no run reaches (R85), a free value. -/
def stepSize (idx : BitVec 16) : Nat := (stepTable[idx.toNat]?).getD (Config.stepBeyondTable idx.toNat)

/-- `diffmag(step, n)` (R82). -/
def diffmag (step : Nat) (n : Nibble) : Nat :=
  (step >>> 3) + (if n.getLsbD 2 then step else 0) + (if n.getLsbD 1 then step >>> 1 else 0)
    + (if n.getLsbD 0 then step >>> 2 else 0)

/-- `advance(idx, n)`, the step-index state machine (R84). -/
def advance (idx : BitVec 16) (n : Nibble) : BitVec 16 := BitVec.ofInt 16 (clampIdx (idx.toInt + indexMove n))

/-- The state after a nibble moved the predictor to `p`, before clipping (R83, R86): both directions end in this. -/
def settle (st : ChannelState) (n : Nibble) (p : Int) : ChannelState where
  pred := BitVec.ofInt 32 (clip16 p)
  idx := advance st.idx n

/-- The predictor moved by a magnitude in the direction of the nibble's sign bit (R81). -/
def moved (st : ChannelState) (n : Nibble) (magnitude : Nat) : Int :=
  if n.getLsbD 3 then st.pred.toInt - magnitude else st.pred.toInt + magnitude

/-! ### The two codec functions -/

/-- `expand_nibble(st, n)` (R83): the new state and the sample, which is the new predictor. -/
def expandNibble (st : ChannelState) (n : Nibble) : ChannelState × Sample :=
  let p := moved st n (diffmag (stepSize st.idx) n)
  (settle st n p, BitVec.ofInt 16 (clip16 p))

/-- The encoder's working values (R86): the nibble so far, what is left of |delta|, and the magnitude so far. -/
structure Greedy where
  n : Nibble
  delta : Nat
  vp : Nat
  deriving DecidableEq, Repr

/-- One greedy test (R86): `delta >= threshold` sets the bit, subtracts from delta and adds to the magnitude. -/
def greedyTest (bit : Nibble) (threshold : Nat) (g : Greedy) : Greedy :=
  if threshold ≤ g.delta then ⟨g.n ||| bit, g.delta - threshold, g.vp + threshold⟩ else g

/-- The sign bit, and then the three tests in the order of R86. -/
def quantize (step : Nat) (delta : Int) : Greedy :=
  greedyTest 1 (step >>> 2) (greedyTest 2 (step >>> 1) (greedyTest 4 step
    ⟨if delta < 0 then 8 else 0, delta.natAbs, step >>> 3⟩))

/-- `compress_sample(st, x)` (R86): the new state and the nibble. DEDUCED (log entry 16): where a corner case of R89 disagrees with
R86's pseudocode on repeated COMPRESS of one value, the pseudocode is followed, and the predictor moves both ways around the value. -/
def compressSample (st : ChannelState) (x : Sample) : ChannelState × Nibble :=
  let q := quantize (stepSize st.idx) (x.toInt - st.pred.toInt)
  (settle st q.n (moved st q.n q.vp), q.n)

/-! ### EXPAND and COMPRESS -/

/-- R88. -/
def expandEffect (stream chan : Nat) (nib : Nibble) (s : State) : Effect := do
  payloadIs 0 s
  let id ← slotOperand stream chan
  let (st, y) := expandNibble (readSlot s.slots id) nib
  return ({ s with slots := writeSlot s.slots id st }, bytes16 y)

/-- EXPAND (R88): reconstruct one sample from one nibble, on a slot. -/
def execExpand (stream chan : Nat) (nib : Nibble) (s : State) : Host.Outcome State Fault Refusal :=
  complete s (expandEffect stream chan nib s)

/-- R89. OUT is the one byte of the nibble, 0..15. -/
def compressEffect (stream chan : Nat) (sample : Sample) (s : State) : Effect := do
  payloadIs 0 s
  let id ← slotOperand stream chan
  let (st, n) := compressSample (readSlot s.slots id) sample
  return ({ s with slots := writeSlot s.slots id st }, [n.setWidth 8])

/-- COMPRESS (R89): quantize one sample into one nibble, on a slot. -/
def execCompress (stream chan : Nat) (sample : Sample) (s : State) : Host.Outcome State Fault Refusal :=
  complete s (compressEffect stream chan sample s)

end Sys2Proof.Machine
end

