-- ==== Sys2Proof/Machine/FrameCodec.lean ====
section
/-! DEFINITION. The frame codec (41_frame_codec.md): the chunk header, the nibble packer, `decode_chunk` and `encode_chunk`,
and the commands DECODE_CHUNK and ENCODE_CHUNK. -/

namespace Sys2Proof.Machine

/-! ### Header and nibble packing -/

/-- The step index of a header byte, read as `sext_8` (R101), under a policy. -/
def headerIndex (policy : StepIndexPolicy) (raw : Int) : Except ErrKind (BitVec 16) :=
  match policy with
  | .reject => if raw < 0 ∨ 88 < raw then .error .invalidStepIndex else .ok (BitVec.ofInt 16 raw)
  | .clamp => .ok (BitVec.ofInt 16 (clampIdx raw))

/-- `header_decode(B)` (R101). Byte 3 is not read. -/
def headerDecode (policy : StepIndexPolicy) (B : List Byte) : Except ErrKind ChannelState :=
  match headerIndex policy (BitVec.ofNat 8 (memRead B 2 1)).toInt with
  | .error k => .error k
  | .ok idx => .ok { pred := (BitVec.ofNat 16 (memRead B 0 2)).signExtend 32, idx := idx }

/-- `header_encode(pred, idx)` (R104). -/
def headerEncode (st : ChannelState) : List Byte :=
  [st.pred.extractLsb' 0 8, st.pred.extractLsb' 8 8, st.idx.extractLsb' 0 8, 0]

/-- The first code of a packed byte, `b & 0x0F` (R102). -/
def lowNibble (b : Byte) : Nibble := b.extractLsb' 0 4

/-- The second code of a packed byte, `b >> 4` (R102). -/
def highNibble (b : Byte) : Nibble := b.extractLsb' 4 4

/-- `pack(n1, n2) = (n2 << 4) | n1` (R103). -/
def pack (n1 n2 : Nibble) : Byte := (n2.setWidth 8 <<< 4) ||| n1.setWidth 8

/-! ### Chunk functions -/

/-- One packed byte expanded, low nibble first (R102). -/
def expandByte (st : ChannelState) (b : Byte) : ChannelState × List Sample :=
  let (st1, y1) := expandNibble st (lowNibble b)
  let (st2, y2) := expandNibble st1 (highNibble b)
  (st2, [y1, y2])

/-- The nibble loop of `decode_chunk`: the last working state and the samples. -/
def expandBytes (st : ChannelState) (bs : List Byte) : ChannelState × List Sample := emitOver expandByte st bs

/-- `decode_chunk(B)` (R105). The working state is local and discarded (10_state.md R29). -/
def decodeChunk (policy : StepIndexPolicy) (g : Geometry) (B : List Byte) : Except ErrKind (List Sample) :=
  if B.length ≠ g.chunkSize then .error .malformedChunk
  else
    match headerDecode policy B with
    | .error k => .error k
    | .ok st => .ok (st.pred.setWidth 16 :: (expandBytes st (B.drop 4)).2)

/-- The nibble loop of `encode_chunk` (R106): two samples to a byte. -/
def compressPairs : ChannelState → List Sample → ChannelState × List Byte
  | st, x1 :: x2 :: xs =>
    let (st1, n1) := compressSample st x1
    let (st2, n2) := compressSample st1 x2
    let (st3, bs) := compressPairs st2 xs
    (st3, pack n1 n2 :: bs)
  | st, _ => (st, [])

/-- `encode_chunk` after its length check (R106): pred becomes S[0], taken as it is (R112); only idx is carried over. -/
def encodeWindow (st : ChannelState) : List Sample → ChannelState × List Byte
  | [] => (st, [])
  | x0 :: xs =>
    let start : ChannelState := { st with pred := x0.signExtend 32 }
    let (last, bs) := compressPairs start xs
    (last, headerEncode start ++ bs)

/-- `encode_chunk(st, S)` (R106). -/
def encodeChunk (g : Geometry) (st : ChannelState) (S : List Sample) : Except ErrKind (ChannelState × List Byte) :=
  if S.length ≠ g.chunkSamples then .error .sampleCountMismatch else .ok (encodeWindow st S)

/-! ### DECODE_CHUNK and ENCODE_CHUNK -/

/-- R110. -/
def decodeChunkEffect (s : State) : Effect := do
  let g ← configured s
  require (s.inp.length == g.chunkSize) .malformedChunk
  let samples ← decodeChunk s.params.stepIndexPolicy g s.inp
  return (s, bytesOf samples)

/-- DECODE_CHUNK (R110): decode one chunk into D samples. -/
def execDecodeChunk (s : State) : Host.Outcome State Fault Refusal := complete s (decodeChunkEffect s)

/-- R111. -/
def encodeChunkEffect (stream chan : Nat) (s : State) : Effect := do
  let id ← slotOperand stream chan
  let g ← configured s
  require (s.inp.length == 2 * g.chunkSamples) .sampleCountMismatch
  let (st, B) ← encodeChunk g (readSlot s.slots id) (samplesOf s.inp)
  return ({ s with slots := writeSlot s.slots id st }, B)

/-- ENCODE_CHUNK (R111): encode D samples into one chunk, advancing a slot. -/
def execEncodeChunk (stream chan : Nat) (s : State) : Host.Outcome State Fault Refusal :=
  complete s (encodeChunkEffect stream chan s)

end Sys2Proof.Machine
end

