-- ==== Sys2Proof/Machine/Interleave.lean ====
section
/-! DEFINITION. The interleaving engine (42_interleave.md): the walk over a container, PCM interleaving, padding, and the
commands CONFIGURE, GEOMETRY, LOCATE, DECODE_CONTAINER and ENCODE_CONTAINER. -/

namespace Sys2Proof.Machine

/-! ### PCM (R126, R127) -/

/-- `pcm_interleave` (R126) of channel buffers that hold `T` samples each: for each time, the sample of each channel in order. -/
def interleaveSamples {α : Type} : Nat → List (List α) → List α
  | 0, _ => []
  | T + 1, Xs => Xs.flatMap (fun X => X.take 1) ++ interleaveSamples T (Xs.map List.tail)

/-- Every cc-th sample, `T` times: with the samples of a PCM sequence from channel c on, that channel's sequence (R127). -/
def everyNth {α : Type} (cc : Nat) : Nat → List α → List α
  | 0, _ => []
  | T + 1, ys => ys.take 1 ++ everyNth cc T (ys.drop cc)

/-- `T = |P| / (2 × cc)`: the sample frames of a PCM byte sequence (R127). -/
def frameCount (g : Geometry) (P : List Byte) : Nat := P.length / (2 * g.channelCount)

/-- `pcm_deinterleave(P)_c` (R127). -/
def pcmChannel (g : Geometry) (P : List Byte) (c : Nat) : List Sample :=
  everyNth g.channelCount (frameCount g P) ((samplesOf P).drop c)

/-! ### Decode direction -/

/-- One chunk of a container (R123, R128). -/
def containerChunk (g : Geometry) (C : List Byte) (i c k : Nat) : List Byte :=
  slice C (chunkOffset g i c k) g.chunkSize

/-- Channel c's block buffer (R128): the chunks of one channel segment, decoded and concatenated. -/
def decodeSegment (policy : StepIndexPolicy) (g : Geometry) (C : List Byte) (i c : Nat) : Except ErrKind (List Sample) :=
  match tryMap (fun k => decodeChunk policy g (containerChunk g C i c k)) (List.range g.chunksPerInterleave) with
  | .error k => .error k
  | .ok chunks => .ok chunks.flatten

/-- `decode_block(C, i)` (R128). -/
def decodeBlock (policy : StepIndexPolicy) (g : Geometry) (C : List Byte) (i : Nat) : Except ErrKind (List Byte) :=
  match tryMap (decodeSegment policy g C i) (List.range g.channelCount) with
  | .error k => .error k
  | .ok Xs => .ok (bytesOf (interleaveSamples g.blockSamples Xs))

/-- Stream s's PCM: its own blocks in increasing order, concatenated (R124, R130). -/
def streamPcm (g : Geometry) (blocks : List (List Byte)) (s : Nat) : List Byte :=
  blocks.zipIdx.flatMap fun (pcm, i) => if blockOwner g i = s then pcm else []

/-- `decode_container(C)` (R130), with the tail rule of R125. -/
def decodeContainer (p : Params) (g : Geometry) (C : List Byte) : Except ErrKind (List (List Byte)) :=
  if C.length % g.blockBytes ≠ 0 ∧ p.tailPolicy = .fault then .error .truncatedContainer
  else
    match tryMap (decodeBlock p.stepIndexPolicy g C) (List.range (C.length / g.blockBytes)) with
    | .error k => .error k
    | .ok blocks => .ok ((List.range g.streamCount).map (streamPcm g blocks))

/-! ### Encode direction -/

/-- `P_blocks` (R132): the interleave blocks of each stream, from the longest stream. -/
def blocksPerStream (g : Geometry) (Ps : List (List Byte)) : Nat :=
  ((Ps.map (frameCount g)).foldl max 0 + g.blockSamples - 1) / g.blockSamples

/-- `pad(X, want)` (R134). -/
def pad (policy : PadPolicy) (want : Nat) (X : List Sample) : Except ErrKind (List Sample) :=
  if X.length = want then .ok X
  else
    match policy with
    | .fault => .error .sampleCountMismatch
    | .padSilence => .ok (X ++ List.replicate (want - X.length) 0)
    | .padLast => .ok (X ++ List.replicate (want - X.length) (X.getLastD 0))

/-- Y_{s,c} of one stream, channel by channel (R133). -/
def paddedChannels (policy : PadPolicy) (g : Geometry) (want : Nat) (P : List Byte) : Except ErrKind (List (List Sample)) :=
  tryMap (fun c => pad policy want (pcmChannel g P c)) (List.range g.channelCount)

/-- The strict walk of R133 over a container of `n` blocks: every (i, c, k), block by block, channel by channel, chunk by chunk. -/
def chunkWalk (g : Geometry) (n : Nat) : List (Nat × Nat × Nat) :=
  (List.range n).flatMap fun i => (List.range g.channelCount).flatMap fun c =>
    (List.range g.chunksPerInterleave).map fun k => (i, c, k)

/-- Window of chunk k of channel c of block i (R133): D samples of the owner's padded channel sequence. -/
def sampleWindow (g : Geometry) (Y : List (List (List Sample))) (i c k : Nat) : List Sample :=
  let X := ((Y[blockOwner g i]?).getD [])[c]?.getD []
  (X.drop ((blockSeq g i * g.chunksPerInterleave + k) * g.chunkSamples)).take g.chunkSamples

/-- One turn of R133's loop: encode the window on its stream and channel's own slot and emit the chunk. Every window is exactly D
samples, so `encode_chunk` never raises here; a stream or channel without a slot does not occur with a legal CFG (10_state.md R21). -/
def encodeTurn (g : Geometry) (Y : List (List (List Sample))) (f : SlotFile) (at_ : Nat × Nat × Nat) : SlotFile × List Byte :=
  match slotOperand (blockOwner g at_.1) at_.2.1 with
  | .error _ => (f, [])
  | .ok id =>
    let (st, B) := encodeWindow (readSlot f id) (sampleWindow g Y at_.1 at_.2.1 at_.2.2)
    (writeSlot f id st, B)

/-- `encode_container(P_0, …)` (R133): the checks, then the slots s < S, c < cc made fresh (R135), then the walk. -/
def encodeContainer (p : Params) (g : Geometry) (f : SlotFile) (Ps : List (List Byte)) : Except ErrKind (SlotFile × List Byte) :=
  if Ps.any fun P => P.length % (2 * g.channelCount) ≠ 0 then .error .sampleCountMismatch
  else
    match tryMap (paddedChannels p.padPolicy g (blocksPerStream g Ps * g.blockSamples)) Ps with
    | .error k => .error k
    | .ok Y =>
      .ok (emitOver (encodeTurn g Y) (writeUsedSlots f g.streamCount g.channelCount (freshChannelState p))
        (chunkWalk g (blocksPerStream g Ps * g.streamCount)))

/-! ### Commands -/

/-- R138. -/
def configureEffect (mono rate : Bool) (scount : Nat) (s : State) : Effect := do
  payloadIs 0 s
  require (1 ≤ scount && scount ≤ 6) .configError
  return ({ s with cfg := { valid := true, mono := mono, rate := rate, scount := BitVec.ofNat 3 scount } }, [])

/-- CONFIGURE (R138): set the stream configuration. The slot file is not touched. -/
def execConfigure (mono rate : Bool) (scount : Nat) (s : State) : Host.Outcome State Fault Refusal :=
  complete s (configureEffect mono rate scount s)

/-- The ten words of GEOMETRY, in order (R139, D43). -/
def geometryWords (g : Geometry) : List Nat :=
  [g.frequency, g.channelCount, g.chunkSize, g.interleaveSize, g.chunksPerInterleave,
   g.payloadBytes, g.chunkSamples, g.blockSamples, g.blockBytes, g.streamCount]

/-- R139. -/
def geometryEffect (s : State) : Effect := do
  payloadIs 0 s
  let g ← configured s
  return (s, (geometryWords g).flatMap (leBytes 4))

/-- GEOMETRY (R139): report the geometry calculator's values. -/
def execGeometry (s : State) : Host.Outcome State Fault Refusal := complete s (geometryEffect s)

/-- R140. -/
def locateEffect (chan chunk : Nat) (s : State) : Effect := do
  payloadIs 4 s
  let g ← configured s
  require (chan < g.channelCount && chunk < g.chunksPerInterleave) .illegalCommand
  let i := memRead s.inp 0 4
  return (s, leBytes 4 (blockOwner g i) ++ leBytes 4 (blockSeq g i) ++ leBytes 8 (chunkOffset g i chan chunk))

/-- LOCATE (R140): run the dispatcher and the layout for one chunk. -/
def execLocate (chan chunk : Nat) (s : State) : Host.Outcome State Fault Refusal := complete s (locateEffect chan chunk s)

/-- DECODE_CONTAINER's response payload (R141, D25): a u64 length and the PCM of each stream, in order. -/
def pcmRecords (pcms : List (List Byte)) : List Byte := pcms.flatMap fun pcm => leBytes 8 pcm.length ++ pcm

/-- R141. -/
def decodeContainerEffect (s : State) : Effect := do
  let g ← configured s
  let pcms ← decodeContainer s.params g s.inp
  return (s, pcmRecords pcms)

/-- DECODE_CONTAINER (R141): decode a whole container into per-stream PCM. -/
def execDecodeContainer (s : State) : Host.Outcome State Fault Refusal := complete s (decodeContainerEffect s)

/-- R142. -/
def encodeContainerEffect (s : State) : Effect := do
  let g ← configured s
  let Ps ← parseRecords g.streamCount s.inp
  let (f, C) ← encodeContainer s.params g s.slots Ps
  return ({ s with slots := f }, C)

/-- ENCODE_CONTAINER (R142): encode per-stream PCM into one container. -/
def execEncodeContainer (s : State) : Host.Outcome State Fault Refusal := complete s (encodeContainerEffect s)

end Sys2Proof.Machine
end

