-- ==== Sys2Proof/Machine/StateAccess.lean ====
section
/-! DEFINITION. The channel-state access commands (43_state_access.md): INIT_STATES, WRITE_STATE and READ_STATE. None reads CFG. -/

namespace Sys2Proof.Machine

/-- R150. -/
def initStatesEffect (s : State) : Effect := do
  payloadIs 0 s
  return ({ s with slots := fillSlots (freshChannelState s.params) }, [])

/-- INIT_STATES (R150): construct fresh encoder states for a run. -/
def execInitStates (s : State) : Host.Outcome State Fault Refusal := complete s (initStatesEffect s)

/-- R151: idx = `zext_8(IN[0])`, legal 0..88 whatever STEP_INDEX_POLICY says (D27). -/
def writeStateEffect (stream chan : Nat) (pred : Sample) (s : State) : Effect := do
  payloadIs 1 s
  let id ← slotOperand stream chan
  let idx := memRead s.inp 0 1
  require (idx ≤ 88) .invalidStepIndex
  return ({ s with slots := writeSlot s.slots id { pred := pred.signExtend 32, idx := BitVec.ofNat 16 idx } }, [])

/-- WRITE_STATE (R151): set one slot. -/
def execWriteState (stream chan : Nat) (pred : Sample) (s : State) : Host.Outcome State Fault Refusal :=
  complete s (writeStateEffect stream chan pred s)

/-- R152. -/
def readStateEffect (stream chan : Nat) (s : State) : Effect := do
  payloadIs 0 s
  let id ← slotOperand stream chan
  return (s, headerEncode (readSlot s.slots id))

/-- READ_STATE (R152): read one slot, in chunk-header form. -/
def execReadState (stream chan : Nat) (s : State) : Host.Outcome State Fault Refusal :=
  complete s (readStateEffect stream chan s)

end Sys2Proof.Machine
end

