-- ==== Sys2Proof/Machine/Dispatch.lean ====
section
/-! DEFINITION. One arm per instruction of Sys2Proof/Syntax.lean, each one direct call of that instruction's meaning. -/

namespace Sys2Proof.Machine

def exec (i : Instr) (s : State) : Host.Outcome State Fault Refusal :=
  match i with
  | .configure mono rate scount => Sys2Proof.Machine.execConfigure mono rate scount s
  | .geometry => Sys2Proof.Machine.execGeometry s
  | .locate chan chunk => Sys2Proof.Machine.execLocate chan chunk s
  | .initStates => Sys2Proof.Machine.execInitStates s
  | .writeState stream chan pred => Sys2Proof.Machine.execWriteState stream chan pred s
  | .readState stream chan => Sys2Proof.Machine.execReadState stream chan s
  | .expand stream chan nib => Sys2Proof.Machine.execExpand stream chan nib s
  | .compress stream chan sample => Sys2Proof.Machine.execCompress stream chan sample s
  | .decodeChunk => Sys2Proof.Machine.execDecodeChunk s
  | .encodeChunk stream chan => Sys2Proof.Machine.execEncodeChunk stream chan s
  | .decodeContainer => Sys2Proof.Machine.execDecodeContainer s
  | .encodeContainer => Sys2Proof.Machine.execEncodeContainer s

end Sys2Proof.Machine
end

