-- ==== Sys2Proof/Machine/Port.lean ====
section
/-! DEFINITION. The command port and the host's moves (70_reset_and_hazards.md R180 to R185, R193): accepting a frame, the
bytes of a response, and what sending, reading and resetting do. -/

namespace Sys2Proof.Machine

/-- The block accepts a frame (30_encoding.md R55): its bytes leave the port, and its payload is IN. -/
def acceptFrame (payload rest : List Byte) (s : State) : State := { s with rx := rest, inp := payload }

/-- The bytes of a response frame (30_encoding.md R70): ST, M = |OUT|, OUT. -/
def responseBytes (r : Response) : List Byte := leBytes 4 r.status.toNat ++ leBytes 8 r.out.length ++ r.out

/-- The bytes received hold more than one frame: the host has begun a second frame before it read the first one's response. -/
def overlong (rx : List Byte) : Bool :=
  match parseFrame rx with
  | none => false
  | some (_, _, rest) => !rest.isEmpty

/-- The host sends bytes (R184): refused while a response is unread, or past the end of the frame in progress; otherwise the port
holds them until their frame is complete (R185). -/
def hostSend (bytes : List Byte) (s : State) : Host.Outcome State Fault Refusal :=
  if !bytes.isEmpty && (s.tx.isSome || overlong (s.rx ++ bytes)) then .refused .frameBeforeResponseRead
  else .next { s with rx := s.rx ++ bytes }

/-- The host reads the pending response (R184). -/
def hostRead (r : Response) (s : State) : State :=
  { s with tx := none, host := { s.host with seen := s.host.seen ++ [r] } }

/-- The host asserts reset (R180, R181): every piece of the block's state takes its reset value; the parameters (R182) and the
host's own memory of what it has read are not the block's. -/
def hostReset (s : State) : State := State.afterReset s.params s.host

/-- The host's next move, when the block has no complete frame to run. With no move left, or while it waits to read a response
that is not there, nothing changes: the block is idle and waits (R185, 60_exceptions.md R173). -/
def hostTurn (s : State) : Host.Outcome State Fault Refusal :=
  match s.host.todo with
  | [] => .next s
  | .send bytes :: todo => hostSend bytes { s with host := { s.host with todo := todo } }
  | .readResponse :: todo =>
    match s.tx with
    | none => .next s
    | some r => .next (hostRead r { s with host := { s.host with todo := todo } })
  | .reset :: todo => .next (hostReset { s with host := { s.host with todo := todo } })

/-- Put the table word's frame on the port of a machine with no response pending (the host's way to run one instruction). -/
def placeFrame (nbits w : Nat) (s : State) : State := { s with rx := tableFrame nbits w, tx := none }

end Sys2Proof.Machine
end

