-- ==== Sys2Proof/Machine/Run.lean ====
section
/-! DEFINITION. Running one complete frame: the header word is decoded (30_encoding.md R69) and its command runs, or the frame
raises IllegalCommand (R72). -/

namespace Sys2Proof.Machine

/-- Run a header word: the command it selects, or IllegalCommand with no other effect (R72). -/
def runHeader (h : Word) (s : State) : Host.Outcome State Fault Refusal :=
  match decode h with
  | .error _ => raise .illegalCommand s
  | .ok i => exec i s

/-- Run a complete frame. Its N payload bytes are consumed whatever H holds (R72), and it does not run while the previous
response is unread (70_reset_and_hazards.md R184). -/
def runFrame (h : Word) (payload rest : List Byte) (s : State) : Host.Outcome State Fault Refusal :=
  if s.tx.isSome then .refused .frameBeforeResponseRead else runHeader h (acceptFrame payload rest s)

end Sys2Proof.Machine
end

