-- ==== Sys2Proof/Machine/Step.lean ====
section
/-! DEFINITION. One step (00_scope.md R18): the block consumes one complete frame and answers it, or, when none is complete, the
host makes its next move. -/

namespace Sys2Proof.Machine

/-- One step. A command starts only once its whole frame has arrived (70_reset_and_hazards.md R185). -/
def step (s : State) : Host.Outcome State Fault Refusal :=
  match parseFrame s.rx with
  | none => hostTurn s
  | some (h, payload, rest) => runFrame h payload rest s

/-- `s` with the table word's frame on the port, so that the next step runs it. -/
def State.withFetchWord (s : State) (nbits w : Nat) : State := placeFrame nbits w s

end Sys2Proof.Machine
end

