-- ==== Sys2Proof/Safety.lean ====
section
/-! DEFINITION. What a safe run keeps, and what an observer of a run sees. -/

namespace Sys2Proof.Machine

/-- The slot invariant of one channel state (10_state.md R28): `-32768 ≤ pred ≤ 32767` and `0 ≤ idx ≤ 88`. -/
abbrev ChannelState.Legal (st : ChannelState) : Prop :=
  -32768 ≤ st.pred.toInt ∧ st.pred.toInt ≤ 32767 ∧ 0 ≤ st.idx.toInt ∧ st.idx.toInt ≤ 88

/-- CFG never holds a value outside the legal ranges (R21): scount is 1..6 once CFG is valid. -/
abbrev Cfg.Legal (c : Cfg) : Prop := c.valid = true → 1 ≤ c.scount.toNat ∧ c.scount.toNat ≤ 6

/-- The state invariant: every slot is legal (R28), CFG is legal (R21), ERR's reserved bits 6 and 7 are zero (R30), and IN is
empty between commands (20_memory.md R40). -/
abbrev State.Inv (s : State) : Prop :=
  (∀ n : Fin 12, (s.slots[n.val]).Legal) ∧ s.cfg.Legal ∧ s.err.toNat < 64 ∧ s.inp = []

/-- The port invariant (70_reset_and_hazards.md R184): no byte is on the port while a response is unread, and the port never holds
more than one frame. -/
abbrev State.PortInv (s : State) : Prop := (s.tx.isSome = true → s.rx = []) ∧ overlong s.rx = false

/-- No error has been recorded since reset (60_exceptions.md R175). -/
abbrev State.ErrorFree (s : State) : Prop := s.err = 0

/-! ### What a command may write (10_state.md R34, R37) -/

/-- The commands that write CFG: CONFIGURE alone (R34). -/
def writesCfg : Instr → Bool
  | .configure _ _ _ => true
  | .geometry => false
  | .locate _ _ => false
  | .initStates => false
  | .writeState _ _ _ => false
  | .readState _ _ => false
  | .expand _ _ _ => false
  | .compress _ _ _ => false
  | .decodeChunk => false
  | .encodeChunk _ _ => false
  | .decodeContainer => false
  | .encodeContainer => false

/-- The slots a command may write under a configuration (R34): its own one, all twelve, those with s < stream_count and
c < channel_count, or none. -/
def mayWriteSlot (i : Instr) (c : Cfg) (id : SlotId) : Bool :=
  match i with
  | .configure _ _ _ => false
  | .geometry => false
  | .locate _ _ => false
  | .initStates => true
  | .writeState stream chan _ => stream == id.stream.val && chan == id.chan.val
  | .readState _ _ => false
  | .expand stream chan _ => stream == id.stream.val && chan == id.chan.val
  | .compress stream chan _ => stream == id.stream.val && chan == id.chan.val
  | .decodeChunk => false
  | .encodeChunk stream chan => stream == id.stream.val && chan == id.chan.val
  | .decodeContainer => false
  | .encodeContainer => id.stream.val < streamCount c && id.chan.val < channelCount c

/-! ### The encoder seen from the decoder (41_frame_codec.md R108, 43_state_access.md R153) -/

/-- The codes of packed bytes in sample order, low nibble first (41_frame_codec.md R102). -/
def nibblesOf (bs : List Byte) : List Nibble := bs.flatMap fun b => [lowNibble b, highNibble b]

/-- The samples that EXPAND of these nibbles, one after the other on one slot, answers (40_sample_codec.md R83). -/
def expandAll : ChannelState → List Nibble → List Sample
  | _, [] => []
  | st, n :: ns => (expandNibble st n).2 :: expandAll (expandNibble st n).1 ns

/-- The codes that COMPRESS of these samples, one after the other on one slot, answers (40_sample_codec.md R86). -/
def compressAll : ChannelState → List Sample → List Nibble
  | _, [] => []
  | st, x :: xs => (compressSample st x).2 :: compressAll (compressSample st x).1 xs

/-- p_1, p_2, …: the predictor the encoder holds after compressing each sample (41_frame_codec.md R108). -/
def reconstructions : ChannelState → List Sample → List Sample
  | _, [] => []
  | st, x :: xs => (compressSample st x).1.pred.setWidth 16 :: reconstructions (compressSample st x).1 xs

/-! ### The padded input of an encode run (42_interleave.md R127, R134) -/

/-- Sample n of channel c of one stream, padded without end: the PCM's own int16 up to its T sample frames; past them the stream's
last sample of that channel under PadLast, if it holds one, and else 0. -/
def paddedSample (policy : PadPolicy) (cfg : Cfg) (P : List Byte) (c n : Nat) : Sample :=
  let T := P.length / (2 * channelCount cfg)
  if n < T then BitVec.ofNat 16 (memRead P (2 * (n * channelCount cfg + c)) 2)
  else if policy = .padLast ∧ 0 < T then BitVec.ofNat 16 (memRead P (2 * ((T - 1) * channelCount cfg + c)) 2)
  else 0

/-! ### Runs (70_reset_and_hazards.md R192) -/

/-- What a run shows: the responses the host has read, in order, and the final CFG, slot file and ERR. A response's M is |OUT|. -/
structure Observation where
  responses : List Response
  cfg : Cfg
  slots : SlotFile
  err : Byte
  deriving DecidableEq, Repr

/-- A run starts after reset or from any state that meets R28, with the command port idle (R181) and nothing read yet. -/
abbrev State.StartsRun (s : State) : Prop := s.Inv ∧ s.rx = [] ∧ s.tx = none ∧ s.host.seen = []

/-- A run has ended: the host has no move left and has read the last response, and no byte of a frame is on the port. Of a command
whose frame never completes R192 says nothing, so a state that holds part of a frame ends no run (log entry 15). -/
abbrev State.EndsRun (s : State) : Prop := s.host.todo = [] ∧ s.tx = none ∧ s.rx = []

/-- The state after `n` steps, if every one of them answers a next state. -/
def runSteps : Nat → State → Option State
  | 0, s => some s
  | n + 1, s =>
    match step s with
    | .next t => runSteps n t
    | .fault _ => none
    | .refused _ => none

/-- The observation of a state that ends a run; a state in mid-run has none. -/
def observe (s : State) : Option Observation :=
  if s.EndsRun then some { responses := s.host.seen, cfg := s.cfg, slots := s.slots, err := s.err } else none

/-- The run from `s` ends, and shows `o`. -/
def State.RunShows (s : State) (o : Observation) : Prop :=
  s.StartsRun ∧ ∃ n t, runSteps n s = some t ∧ observe t = some o

end Sys2Proof.Machine
end

