-- ==== Sys2Proof/Certificates/Slice0/Obligations.lean ====
section
/-! DEFINITION. The statements for the provers, file by file of spec/. Each docstring names the rule it formalises. A statement
about "every state" holds for every value of the parameters of 00_scope.md R7, which stand in `State.params`. -/

open Sys2Proof Sys2Proof.Machine

/-! ### 30_encoding.md: encodings and frames -/

/-- R61, R69, R79: no operand bit is dropped. The decoder gives every well-formed instruction back from its word. -/
def Obligations.DecodeOfEncodeIsTheInstruction : Prop :=
  ∀ i : Instr, i.wf → decode (encode i) = .ok i

/-- R61, R69: every word that decodes is the word its instruction encodes to, so each word has one meaning. -/
def Obligations.EncodeOfDecodeIsTheWord : Prop :=
  ∀ (h : Word) (i : Instr), decode h = .ok i → i.wf ∧ encode i = h

/-- R61: "No two rows overlap, because each row fixes OPC to a different value." -/
def Obligations.NoTwoOpcodeRowsOverlap : Prop :=
  ∀ h : Word, ∀ r ∈ opcodeRows, ∀ r' ∈ opcodeRows, r.selects h = true → r'.selects h = true → r = r'

/-- R69: a word decodes exactly when `H & mask = match` for some row; otherwise it is rejected. -/
def Obligations.DecodeFollowsTheTable : Prop :=
  ∀ h : Word, (∃ i, decode h = .ok i) ↔ ∃ r ∈ opcodeRows, h &&& r.mask = r.pattern

/-- R75: each reserved opcode is rejected as one, whatever the other fields hold. -/
def Obligations.ReservedOpcodesAreRejected : Prop :=
  ∀ h : Word, (h >>> 24 = 0 ∨ (0x07#32 ≤ h >>> 24 ∧ h >>> 24 ≤ 0x0F#32) ∨ (0x12#32 ≤ h >>> 24 ∧ h >>> 24 ≤ 0x1F#32) ∨
      (0x22#32 ≤ h >>> 24 ∧ h >>> 24 ≤ 0x2F#32) ∨ 0x32#32 ≤ h >>> 24) →
    decode h = .error .reservedOpcode

/-- Words written out from R61's patterns decode to the instructions they stand for (a sanity statement). -/
def Obligations.WordsOfTheSpecDecode : Prop :=
  decode 0b00000001_00000000_00000000_01100010 = .ok (.configure false true 6) ∧
  decode 0b00000011_00000001_00000000_00000010 = .ok (.locate 1 2) ∧
  decode 0b00000101_00000000_11111111_11111110 = .ok (.writeState 0 0 0xFFFE) ∧
  decode 0b00010000_00010000_00000000_00001011 = .ok (.expand 1 0 0b1011) ∧
  decode 0b00100001_00100001_00000000_00000000 = .ok (.encodeChunk 2 1) ∧
  decode 0b00110000_00000000_00000000_00000000 = .ok .decodeContainer ∧
  decode 0b00010000_00000000_00000000_00010111 = .error .mustBeZero

/-- R55: a frame is 8 + N bytes: H at offset 0, N at offset 4, both u32 little-endian, and IN at offset 8. "The block tells where a
frame ends from N alone": whatever bytes follow, the frame's own header word and payload come back, and the bytes after it. -/
def Obligations.FrameIsCutOffWhole : Prop :=
  ∀ (h : Word) (payload rest : List Byte), payload.length < 2 ^ 32 →
    (encodeFrame h payload).length = 8 + payload.length ∧
    memRead (encodeFrame h payload) 0 4 = h.toNat ∧ memRead (encodeFrame h payload) 4 4 = payload.length ∧
    (encodeFrame h payload).drop 8 = payload ∧
    parseFrame (encodeFrame h payload ++ rest) = some (h, payload, rest)

/-- A step runs the decoded instruction: when the port holds a complete frame whose header word decodes to i and no response is
pending, the step is `exec i` on the state in which the frame has left the port and its payload is IN (R69, 00_scope.md R18). -/
def Obligations.StepRunsTheDecodedInstruction : Prop :=
  ∀ (s : State) (h : Word) (payload rest : List Byte) (i : Instr),
    parseFrame s.rx = some (h, payload, rest) → decode h = .ok i → s.tx = none →
    step s = exec i { s with rx := rest, inp := payload }

/-- R72: a header word that matches no row raises IllegalCommand, has no other effect, and its N payload bytes are consumed. -/
def Obligations.IllegalWordRaisesAndConsumesItsPayload : Prop :=
  ∀ (s : State) (h : Word) (payload rest : List Byte),
    payload.length < 2 ^ 32 → (∀ r ∈ opcodeRows, h &&& r.mask ≠ r.pattern) →
    s.rx = encodeFrame h payload ++ rest → s.tx = none →
    step s = .next { s with
      rx := rest, inp := [], err := s.err ||| 0x10#8, tx := some ⟨0#16 ++ (s.err ||| 0x10#8) ++ 5#8, []⟩ }

/-- R70: a response is ST, then M = |OUT| as a u64, then OUT. -/
def Obligations.ResponseFrameLayout : Prop :=
  ∀ r : Response, r.out.length < 2 ^ 64 →
    (responseBytes r).length = 12 + r.out.length ∧
    memRead (responseBytes r) 0 4 = r.status.toNat ∧
    memRead (responseBytes r) 4 8 = r.out.length ∧
    (responseBytes r).drop 12 = r.out

/-! ### 60_exceptions.md, 10_state.md: every command succeeds or raises; what it may write -/

/-- R14, R166, R71: every command, on every state, answers a next state. Either it succeeds (CODE 0, ERR unchanged), or it raises
some code 1..6: ERR gets bit code-1, OUT is empty, and nothing else but the port changes. -/
def Obligations.EveryCommandSucceedsOrRaises : Prop :=
  ∀ (i : Instr) (s : State), ∃ t, exec i s = .next t ∧
    ((t.err = s.err ∧ t.inp = [] ∧ ∃ out, t.tx = some ⟨0#16 ++ s.err ++ 0#8, out⟩) ∨
     (∃ k, 1 ≤ k ∧ k ≤ 6 ∧
       t = { s with
         err := s.err ||| (1#8 <<< (k - 1)), inp := [],
         tx := some ⟨0#16 ++ (s.err ||| (1#8 <<< (k - 1))) ++ BitVec.ofNat 8 k, []⟩ }))

/-- R34, R37: a command writes CFG only if it is CONFIGURE, and a slot only if R34 lists it; the parameters, the port's received
bytes and the host are never written by a command. -/
def Obligations.OnlyTheListedStateIsWritten : Prop :=
  ∀ (i : Instr) (s t : State), exec i s = .next t →
    t.params = s.params ∧ t.host = s.host ∧ t.rx = s.rx ∧
    (writesCfg i = false → t.cfg = s.cfg) ∧
    (∀ id : SlotId, mayWriteSlot i s.cfg id = false → readSlot t.slots id = readSlot s.slots id)

/-- R22: the six commands that use geometry raise ConfigError while `CFG.valid` = 0, once their stage-2 checks have passed (R163). -/
def Obligations.UnconfiguredGeometryCommandsRaise : Prop :=
  ∀ (s : State) (id : SlotId) (c k : Nat), s.cfg.valid = false →
    (s.inp = [] → exec .geometry s = .next (raised .configError s)) ∧
    (s.inp.length = 4 → exec (.locate c k) s = .next (raised .configError s)) ∧
    exec .decodeChunk s = .next (raised .configError s) ∧
    exec (.encodeChunk id.stream id.chan) s = .next (raised .configError s) ∧
    exec .decodeContainer s = .next (raised .configError s) ∧
    exec .encodeContainer s = .next (raised .configError s)

/-- R22: INIT_STATES, WRITE_STATE, READ_STATE, EXPAND and COMPRESS do not read CFG: with any other CFG they do the same. -/
def Obligations.StateCommandsDoNotReadCfg : Prop :=
  ∀ (s t : State) (c : Cfg) (i : Instr) (stream chan : Nat) (pred x : Sample) (n : Nibble),
    i ∈ [.initStates, .writeState stream chan pred, .readState stream chan, .expand stream chan n, .compress stream chan x] →
    exec i s = .next t → exec i { s with cfg := c } = .next { t with cfg := c }

/-- R29: DECODE_CHUNK and DECODE_CONTAINER never read or write the slot file: with any other slot file they do the same. -/
def Obligations.DecodersDoNotTouchTheSlotFile : Prop :=
  ∀ (s t : State) (f : SlotFile) (i : Instr), i ∈ [.decodeChunk, .decodeContainer] → exec i s = .next t →
    t.slots = s.slots ∧ exec i { s with slots := f } = .next { t with slots := f }

/-- R54: repeating one of these commands gives the same response and leaves the same state. -/
def Obligations.RepeatingAnIdempotentCommand : Prop :=
  ∀ (s t : State) (i : Instr) (mono rate : Bool) (a b : Nat) (pred : Sample),
    i ∈ [.geometry, .locate a b, .readState a b, .decodeChunk, .decodeContainer,
         .configure mono rate a, .initStates, .writeState a b pred] →
    exec i s = .next t → exec i { t with inp := s.inp } = .next t

/-! ### 30_encoding.md, 60_exceptions.md: where commands raise, stage by stage -/

/-- R59: a command with a fixed operand size raises IllegalCommand for any other N, whatever its other operands. -/
def Obligations.WrongFixedLengthRaises : Prop :=
  ∀ (s : State) (mono rate : Bool) (n c k stream chan : Nat) (pred x : Sample) (nib : Nibble),
    (s.inp ≠ [] → ∀ i ∈ [.configure mono rate n, .geometry, .initStates, .readState stream chan,
        .expand stream chan nib, .compress stream chan x], exec i s = .next (raised .illegalCommand s)) ∧
    (s.inp.length ≠ 1 → exec (.writeState stream chan pred) s = .next (raised .illegalCommand s)) ∧
    (s.inp.length ≠ 4 → exec (.locate c k) s = .next (raised .illegalCommand s))

/-- R73: a slot operand with s > 5 or c > 1 raises IllegalCommand, whatever CFG and IN hold; and LOCATE with c or k out of range for
the current geometry raises IllegalCommand too. -/
def Obligations.SlotOrChunkOutOfRangeRaises : Prop :=
  ∀ (s : State) (stream chan : Nat) (pred x : Sample) (nib : Nibble) (c k : Nat),
    ((5 < stream ∨ 1 < chan) →
      ∀ i ∈ [.writeState stream chan pred, .readState stream chan, .expand stream chan nib, .compress stream chan x,
        .encodeChunk stream chan], exec i s = .next (raised .illegalCommand s)) ∧
    (s.inp.length = 4 → s.cfg.valid = true →
      ((if s.cfg.mono then 1 else 2) ≤ c ∨ (if s.cfg.rate then 128 else 64) ≤ k) →
      exec (.locate c k) s = .next (raised .illegalCommand s))

/-- R110, R111, R160: once configured, DECODE_CHUNK raises MalformedChunk (code 1, ERR bit 0) unless N = chunk_size, and ENCODE_CHUNK
raises SampleCountMismatch (code 4, ERR bit 3) unless N = 2·D. -/
def Obligations.WrongChunkLengthRaises : Prop :=
  ∀ (s : State) (id : SlotId), s.cfg.valid = true →
    (s.inp.length ≠ (if s.cfg.rate then 512 else 1024) →
      exec .decodeChunk s = .next { s with
        inp := [], err := s.err ||| 0x01#8, tx := some ⟨0#16 ++ (s.err ||| 0x01#8) ++ 1#8, []⟩ }) ∧
    (s.inp.length ≠ (if s.cfg.rate then 2034 else 4082) →
      exec (.encodeChunk id.stream id.chan) s = .next { s with
        inp := [], err := s.err ||| 0x08#8, tx := some ⟨0#16 ++ (s.err ||| 0x08#8) ++ 4#8, []⟩ })

/-- R138, R62: CONFIGURE with SCOUNT outside 1..6 (0 and 7 can be encoded) raises ConfigError; CFG is unchanged, a valid CFG included. -/
def Obligations.ConfigureRejectsStreamCounts : Prop :=
  ∀ (s : State) (mono rate : Bool) (n : Nat), s.inp = [] → (n < 1 ∨ 6 < n) →
    exec (.configure mono rate n) s = .next { s with
      inp := [], err := s.err ||| 0x20#8, tx := some ⟨0#16 ++ (s.err ||| 0x20#8) ++ 6#8, []⟩ }

/-- InvalidStepIndex (R160: code 3, ERR bit 2). R151: WRITE_STATE with a byte 89..255 raises it, whatever STEP_INDEX_POLICY says.
R101, R110: under Reject, so does DECODE_CHUNK of a chunk whose header byte 2 lies outside 0x00..0x58. R141, R163: under Reject, so
does DECODE_CONTAINER, once the tail is accepted, when any chunk's header byte 2 does. -/
def Obligations.StepIndexOutOfRangeRaises : Prop :=
  ∀ (s : State) (id : SlotId) (pred : Sample) (b0 b1 b2 : Byte) (rest : List Byte),
    let t : State := { s with
      inp := [], err := s.err ||| 0x04#8, tx := some ⟨0#16 ++ (s.err ||| 0x04#8) ++ 3#8, []⟩ }
    (0x58 < b2.toNat → s.inp = [b2] → exec (.writeState id.stream id.chan pred) s = .next t) ∧
    (0x58 < b2.toNat → s.cfg.valid = true → s.params.stepIndexPolicy = .reject →
      s.inp = b0 :: b1 :: b2 :: rest → s.inp.length = (if s.cfg.rate then 512 else 1024) →
      exec .decodeChunk s = .next t) ∧
    (s.cfg.valid = true → s.params.stepIndexPolicy = .reject →
      (s.params.tailPolicy = .ignore ∨ s.inp.length % blockBytes s.cfg = 0) →
      (∃ i c k, i < s.inp.length / blockBytes s.cfg ∧ c < channelCount s.cfg ∧ k < chunksPerInterleave s.cfg ∧
        0x58 < memRead s.inp (chunkOffset (geometry s.cfg) i c k + 2) 1) →
      exec .decodeContainer s = .next t)

/-- R125: under TAIL_POLICY = Fault, DECODE_CONTAINER of a container that is not a whole number of interleave blocks raises
TruncatedContainer. R67: ENCODE_CONTAINER raises IllegalCommand when IN is not S records that end exactly at its end. R145: it raises
SampleCountMismatch when a record is not a whole number of sample frames. R134: and so it does, under PAD_POLICY = Fault, when some
stream does not hold exactly P_blocks × block_samples sample frames. R160, R30: their codes are 2, 5 and 4, and their ERR bits 1, 4
and 3. -/
def Obligations.ContainerLengthsRaise : Prop :=
  ∀ (s : State) (Ps : List (List Byte)), s.cfg.valid = true →
    (s.params.tailPolicy = .fault → s.inp.length % ((if s.cfg.mono then 1 else 2) * 65536) ≠ 0 →
      exec .decodeContainer s = .next { s with
        inp := [], err := s.err ||| 0x02#8, tx := some ⟨0#16 ++ (s.err ||| 0x02#8) ++ 2#8, []⟩ }) ∧
    ((∀ Qs : List (List Byte), Qs.length = s.cfg.scount.toNat → (∀ Q ∈ Qs, Q.length < 2 ^ 32) →
        s.inp ≠ Qs.flatMap fun Q => leBytes 4 Q.length ++ Q) →
      exec .encodeContainer s = .next { s with
        inp := [], err := s.err ||| 0x10#8, tx := some ⟨0#16 ++ (s.err ||| 0x10#8) ++ 5#8, []⟩ }) ∧
    (Ps.length = s.cfg.scount.toNat → (∀ P ∈ Ps, P.length < 2 ^ 32) →
      s.inp = Ps.flatMap (fun P => leBytes 4 P.length ++ P) →
      ((∃ P ∈ Ps, P.length % (2 * channelCount s.cfg) ≠ 0) ∨
        (s.params.padPolicy = .fault ∧
          ∃ P ∈ Ps, frameCount (geometry s.cfg) P ≠ blocksPerStream (geometry s.cfg) Ps * blockSamples s.cfg)) →
      exec .encodeContainer s = .next { s with
        inp := [], err := s.err ||| 0x08#8, tx := some ⟨0#16 ++ (s.err ||| 0x08#8) ++ 4#8, []⟩ })

/-- R101: under Clamp no header raises; 0x59..0x7F become 88 and 0x80..0xFF become 0, and 0x00..0x58 are kept. -/
def Obligations.ClampPolicyClampsStepIndex : Prop :=
  ∀ (b0 b1 b2 b3 : Byte) (rest : List Byte), ∃ st, headerDecode .clamp (b0 :: b1 :: b2 :: b3 :: rest) = .ok st ∧
    st.pred.toInt = (BitVec.ofNat 16 (b0.toNat + 256 * b1.toNat)).toInt ∧
    st.idx.toNat = if b2.toNat ≤ 0x58 then b2.toNat else if b2.toNat ≤ 0x7F then 88 else 0

/-! ### 40_sample_codec.md -/

/-- R31, R32 (values the spec itself takes from general knowledge, log entry 4): the step table has 89 strictly increasing entries from 7 to 32767; the index table is -1, -1, -1, -1, 2, 4, 6, 8 by
the magnitude bits, whatever the sign bit. -/
def Obligations.ConstantTables : Prop :=
  stepTable.length = 89 ∧ List.Pairwise (· < ·) stepTable ∧ stepTable.head? = some 7 ∧ stepTable.getLast? = some 32767 ∧
  ∀ n : Nibble, indexMove n = if n.toNat % 8 < 4 then -1 else 2 * ((n.toNat % 8 : Nat) : Int) - 6

/-- R82: `0 ≤ diffmag ≤ 61436` for step ≤ 32767, and the term of each magnitude bit is the step's own, half and quarter. -/
def Obligations.DiffmagIsTheSumOfItsTerms : Prop :=
  ∀ (step : Nat) (n : Nibble),
    diffmag step n = step / 8 + (n.toNat / 4 % 2) * step + (n.toNat / 2 % 2) * (step / 2) + (n.toNat % 2) * (step / 4) ∧
    (step ≤ 32767 → diffmag step n ≤ 61436)

/-- R84, R85: a magnitude 0..3 lowers the index by 1, to no lower than 0; 4, 5, 6, 7 raise it by 2, 4, 6, 8, to no higher than 88.
The moves are INDEX_TABLE's values, which the spec itself takes from general knowledge (93 G2, log entry 4). -/
def Obligations.StepIndexMachine : Prop :=
  ∀ (idx : BitVec 16) (n : Nibble), idx.toNat ≤ 88 →
    (advance idx n).toNat =
      if n.toNat % 8 < 4 then idx.toNat - 1 else min 88 (idx.toNat + 2 * (n.toNat % 8 - 3))

/-- R87, the matched pair: expanding the nibble that `compress_sample` gives, from the same state, gives the same new state, and
the sample is its predictor. -/
def Obligations.MatchedPair : Prop :=
  ∀ (st : ChannelState) (x : Sample),
    (expandNibble st (compressSample st x).2).1 = (compressSample st x).1 ∧
    (expandNibble st (compressSample st x).2).2.toInt = (compressSample st x).1.pred.toInt

/-- R90 (it rests on the `>=` of R86's greedy test and on every step being at least 4, both from the spec's general knowledge: 93 G1,
G3, log entry 4): a zero delta gives nibble 0; nibble 8 comes out exactly when delta < 0 and |delta| < step >> 2; and a |delta| of at least
step + (step >> 1) + (step >> 2) gives magnitude 7. -/
def Obligations.NibbleChoice : Prop :=
  ∀ (st : ChannelState) (x : Sample), 0 ≤ st.idx.toInt → st.idx.toInt ≤ 88 →
    (x.toInt = st.pred.toInt → (compressSample st x).2 = 0) ∧
    ((compressSample st x).2 = 8 ↔
      x.toInt < st.pred.toInt ∧ (x.toInt - st.pred.toInt).natAbs < stepSize st.idx / 4) ∧
    (stepSize st.idx + stepSize st.idx / 2 + stepSize st.idx / 4 ≤ (x.toInt - st.pred.toInt).natAbs →
      (compressSample st x).2.toNat % 8 = 7)

/-- R88, R83: EXPAND. The magnitude is built from the step of the OLD index, added or subtracted by the sign bit and clipped; the
slot takes it and the moved index; OUT is the new predictor, two bytes; every other slot, CFG and ERR stay. -/
def Obligations.ExpandReconstructsOneSample : Prop :=
  ∀ (s : State) (id : SlotId) (n : Nibble), s.inp = [] →
    let st := readSlot s.slots id
    let step := stepSize st.idx
    let d : Int := step / 8 + (n.toNat / 4 % 2) * step + (n.toNat / 2 % 2) * (step / 2) + (n.toNat % 2) * (step / 4)
    let p := max (-32768) (min 32767 (if n.toNat / 8 = 1 then st.pred.toInt - d else st.pred.toInt + d))
    ∃ f : SlotFile,
      exec (.expand id.stream id.chan n) s = .next { s with
        slots := f, inp := [], tx := some ⟨0#16 ++ s.err ++ 0#8, leBytes 2 (BitVec.ofInt 16 p).toNat⟩ } ∧
      (readSlot f id).pred.toInt = p ∧
      (readSlot f id).idx.toInt = max 0 (min 88 (st.idx.toInt + indexMove n)) ∧
      ∀ j, j ≠ id → readSlot f j = readSlot s.slots j

/-- R89, R86: COMPRESS. The sign bit is set only for a negative delta; |delta| is tested with `>=` against the step, its half and
its quarter, each success subtracting; the predictor moves by what was set, clipped; OUT is the nibble, one byte. The `>=` is the
spec's own choice, from general knowledge (D11, 93 G3, log entry 4). -/
def Obligations.CompressQuantizesOneSample : Prop :=
  ∀ (s : State) (id : SlotId) (x : Sample), s.inp = [] →
    let st := readSlot s.slots id
    let step := stepSize st.idx
    let delta := x.toInt - st.pred.toInt
    let b3 := if delta < 0 then 1 else 0
    let d2 := delta.natAbs
    let b2 := if step ≤ d2 then 1 else 0
    let d1 := d2 - b2 * step
    let b1 := if step / 2 ≤ d1 then 1 else 0
    let d0 := d1 - b1 * (step / 2)
    let b0 := if step / 4 ≤ d0 then 1 else 0
    let n := 8 * b3 + 4 * b2 + 2 * b1 + b0
    let vp : Int := ((step / 8 + b2 * step + b1 * (step / 2) + b0 * (step / 4) : Nat) : Int)
    ∃ f : SlotFile,
      exec (.compress id.stream id.chan x) s = .next { s with
        slots := f, inp := [], tx := some ⟨0#16 ++ s.err ++ 0#8, [BitVec.ofNat 8 n]⟩ } ∧
      (readSlot f id).pred.toInt =
        max (-32768) (min 32767 (if delta < 0 then st.pred.toInt - vp else st.pred.toInt + vp)) ∧
      (readSlot f id).idx.toInt = max 0 (min 88 (st.idx.toInt + indexMove (BitVec.ofNat 4 n))) ∧
      ∀ j, j ≠ id → readSlot f j = readSlot s.slots j

/-! ### 43_state_access.md -/

/-- R150: INIT_STATES makes every slot (0, INITIAL_STEP_INDEX); OUT is empty; CFG and ERR are unchanged. -/
def Obligations.InitStatesMakesEverySlotFresh : Prop :=
  ∀ s : State, s.inp = [] → ∃ f : SlotFile,
    exec .initStates s = .next { s with slots := f, inp := [], tx := some ⟨0#16 ++ s.err ++ 0#8, []⟩ } ∧
    ∀ id, (readSlot f id).pred.toInt = 0 ∧ (readSlot f id).idx.toNat = s.params.initialStepIndex.val

/-- R151: WRITE_STATE sets one slot to (sext_16(H[15:0]), IN[0]); the others, CFG and ERR stay. -/
def Obligations.WriteStateSetsOneSlot : Prop :=
  ∀ (s : State) (id : SlotId) (pred : Sample) (b : Byte), s.inp = [b] → b.toNat ≤ 88 → ∃ f : SlotFile,
    exec (.writeState id.stream id.chan pred) s = .next { s with
      slots := f, inp := [], tx := some ⟨0#16 ++ s.err ++ 0#8, []⟩ } ∧
    (readSlot f id).pred.toInt = pred.toInt ∧ (readSlot f id).idx.toNat = b.toNat ∧
    ∀ j, j ≠ id → readSlot f j = readSlot s.slots j

/-- R152, R104: READ_STATE answers the predictor's two bytes, the index byte and 0; nothing else changes. -/
def Obligations.ReadStateAnswersTheHeader : Prop :=
  ∀ (s : State) (id : SlotId), s.inp = [] →
    exec (.readState id.stream id.chan) s = .next { s with
      inp := [],
      tx := some ⟨0#16 ++ s.err ++ 0#8,
        leBytes 2 ((readSlot s.slots id).pred.toNat % 65536) ++ [BitVec.ofNat 8 (readSlot s.slots id).idx.toNat, 0]⟩ }

/-! ### 41_frame_codec.md -/

/-- R102, R103: packing and unpacking nibbles undo each other, in both directions. -/
def Obligations.PackAndUnpackAreInverse : Prop :=
  (∀ b : Byte, pack (lowNibble b) (highNibble b) = b) ∧
  (∀ n1 n2 : Nibble, lowNibble (pack n1 n2) = n1 ∧ highNibble (pack n1 n2) = n2)

/-- R104: `header_decode` reads the header of a legal state back unchanged, under either policy, whatever follows it. -/
def Obligations.HeaderRoundTrip : Prop :=
  ∀ (policy : StepIndexPolicy) (st : ChannelState) (rest : List Byte), st.Legal →
    headerDecode policy (headerEncode st ++ rest) = .ok st

/-- R100, R101: header byte 3 is ignored: a chunk decodes the same whatever it holds. -/
def Obligations.ReservedHeaderByteIsIgnored : Prop :=
  ∀ (policy : StepIndexPolicy) (c : Cfg) (b0 b1 b2 b3 b3' : Byte) (rest : List Byte),
    decodeChunk policy (geometry c) (b0 :: b1 :: b2 :: b3 :: rest) =
      decodeChunk policy (geometry c) (b0 :: b1 :: b2 :: b3' :: rest)

/-- R153, R105: the samples of a chunk are its leading sample and what EXPAND gives of its nibbles in order, low nibble first, from
the header's state. -/
def Obligations.DecodeChunkExpandsEachNibble : Prop :=
  ∀ (policy : StepIndexPolicy) (c : Cfg) (B : List Byte) (st : ChannelState),
    B.length = chunkSize c → headerDecode policy B = .ok st →
    decodeChunk policy (geometry c) B = .ok (st.pred.setWidth 16 :: expandAll st (nibblesOf (B.drop 4)))

/-- R110: DECODE_CHUNK completes on every configured chunk of the right length whose header the policy takes. OUT is what
`decode_chunk` gives, 2·D bytes, and begins with the leading sample, verbatim; the slot file, CFG and ERR stay. -/
def Obligations.DecodeChunkCompletes : Prop :=
  ∀ s : State, s.cfg.valid = true → s.inp.length = (if s.cfg.rate then 512 else 1024) →
    (s.params.stepIndexPolicy = .clamp ∨ memRead s.inp 2 1 ≤ 0x58) →
    ∃ samples : List Sample,
      exec .decodeChunk s = .next { s with inp := [], tx := some ⟨0#16 ++ s.err ++ 0#8, samples.flatMap bytes16⟩ } ∧
      decodeChunk s.params.stepIndexPolicy (geometry s.cfg) s.inp = .ok samples ∧
      (samples.flatMap bytes16).length = (if s.cfg.rate then 2034 else 4082) ∧
      (samples.flatMap bytes16).take 2 = s.inp.take 2

/-- R111, R106: ENCODE_CHUNK completes on every configured slot and payload of 2·D bytes. The slot and OUT are what `encode_chunk`
gives; OUT is chunk_size bytes, and its header is the payload's own first sample, the slot's index before the chunk, and 0; other
slots, CFG and ERR stay. -/
def Obligations.EncodeChunkCompletes : Prop :=
  ∀ (s : State) (id : SlotId), s.cfg.valid = true → s.inp.length = (if s.cfg.rate then 2034 else 4082) →
    ∃ (f : SlotFile) (B : List Byte),
      exec (.encodeChunk id.stream id.chan) s = .next { s with
        slots := f, inp := [], tx := some ⟨0#16 ++ s.err ++ 0#8, B⟩ } ∧
      encodeChunk (geometry s.cfg) (readSlot s.slots id) (samplesOf s.inp) = .ok (readSlot f id, B) ∧
      B.length = (if s.cfg.rate then 512 else 1024) ∧
      B.take 4 = s.inp.take 2 ++ [BitVec.ofNat 8 (readSlot s.slots id).idx.toNat, 0] ∧
      ∀ j, j ≠ id → readSlot f j = readSlot s.slots j

/-- R112: ENCODE_CHUNK never reads the slot's predictor: with any other predictor in that slot it does the same. -/
def Obligations.EncodeChunkIgnoresTheOldPredictor : Prop :=
  ∀ (s : State) (id : SlotId) (p : BitVec 32), s.cfg.valid = true →
    s.inp.length = (if s.cfg.rate then 2034 else 4082) →
    exec (.encodeChunk id.stream id.chan)
        { s with slots := writeSlot s.slots id { readSlot s.slots id with pred := p } } =
      exec (.encodeChunk id.stream id.chan) s

/-- R108, R106: an encoded chunk is the header of (S[0], idx) and the codes of the other samples in order, low nibble first; decoding
it gives S[0] and then the predictor the encoder held after each sample, and the decoder's last working state is the encoder's. -/
def Obligations.EncodeThenDecodeChunk : Prop :=
  ∀ (policy : StepIndexPolicy) (c : Cfg) (st : ChannelState) (x0 : Sample) (xs : List Sample),
    0 ≤ st.idx.toInt → st.idx.toInt ≤ 88 → (x0 :: xs).length = chunkSamples c →
    let start : ChannelState := { st with pred := x0.signExtend 32 }
    ∃ (st' : ChannelState) (B : List Byte),
      encodeChunk (geometry c) st (x0 :: xs) = .ok (st', B) ∧
      headerDecode policy B = .ok start ∧ nibblesOf (B.drop 4) = compressAll start xs ∧
      decodeChunk policy (geometry c) B = .ok (x0 :: reconstructions start xs) ∧
      (expandBytes start (B.drop 4)).1 = st'

/-! ### 42_interleave.md -/

/-- R138: CONFIGURE writes all four fields of CFG at once; OUT is empty; the slot file and ERR stay. -/
def Obligations.ConfigureSetsTheConfiguration : Prop :=
  ∀ (s : State) (mono rate : Bool) (n : Nat), s.inp = [] → 1 ≤ n → n ≤ 6 →
    exec (.configure mono rate n) s = .next { s with
      cfg := { valid := true, mono := mono, rate := rate, scount := BitVec.ofNat 3 n },
      inp := [], tx := some ⟨0#16 ++ s.err ++ 0#8, []⟩ }

/-- R139 with R121's table: the ten words of GEOMETRY, for every configuration. -/
def Obligations.GeometryReportsTheTable : Prop :=
  ∀ s : State, s.inp = [] → s.cfg.valid = true →
    exec .geometry s = .next { s with
      inp := [],
      tx := some ⟨0#16 ++ s.err ++ 0#8,
        (match s.cfg.mono, s.cfg.rate with
          | true, false => [44100, 1, 1024, 65536, 64, 1020, 2041, 130624, 65536, s.cfg.scount.toNat]
          | false, false => [44100, 2, 1024, 65536, 64, 1020, 2041, 130624, 131072, s.cfg.scount.toNat]
          | true, true => [22050, 1, 512, 65536, 128, 508, 1017, 130176, 65536, s.cfg.scount.toNat]
          | false, true => [22050, 2, 512, 65536, 128, 508, 1017, 130176, 131072, s.cfg.scount.toNat]).flatMap (leBytes 4)⟩ }

/-- R140, R123, R124: LOCATE answers owner(i) = i mod S, seq(i) = i div S and the chunk's container offset; nothing else changes. -/
def Obligations.LocateReportsTheChunk : Prop :=
  ∀ (s : State) (c k : Nat), s.inp.length = 4 → s.cfg.valid = true → s.cfg.Legal →
    c < (if s.cfg.mono then 1 else 2) → k < (if s.cfg.rate then 128 else 64) →
    exec (.locate c k) s = .next { s with
      inp := [],
      tx := some ⟨0#16 ++ s.err ++ 0#8,
        leBytes 4 (leNat s.inp % s.cfg.scount.toNat) ++ leBytes 4 (leNat s.inp / s.cfg.scount.toNat) ++
        leBytes 8 (leNat s.inp * ((if s.cfg.mono then 1 else 2) * 65536) + c * 65536 +
          k * (if s.cfg.rate then 512 else 1024))⟩ }

/-- R123, R137: the chunks of a container of n blocks lie inside its n × block_bytes bytes, and two different chunks never overlap. -/
def Obligations.ChunksDoNotOverlap : Prop :=
  ∀ (cfg : Cfg) (n i c k i' c' k' : Nat), i < n → i' < n →
    c < channelCount cfg → c' < channelCount cfg → k < chunksPerInterleave cfg → k' < chunksPerInterleave cfg →
    chunkOffset (geometry cfg) i c k + chunkSize cfg ≤ n * blockBytes cfg ∧
    ((i, c, k) ≠ (i', c', k') →
      chunkOffset (geometry cfg) i c k + chunkSize cfg ≤ chunkOffset (geometry cfg) i' c' k' ∨
      chunkOffset (geometry cfg) i' c' k' + chunkSize cfg ≤ chunkOffset (geometry cfg) i c k)

/-- R143: of B blocks, stream s owns ⌊B / S⌋ + (s < B mod S ? 1 : 0). -/
def Obligations.BlocksOwnedByAStream : Prop :=
  ∀ (cfg : Cfg) (B n : Nat), n < streamCount cfg →
    ((List.range B).filter fun i => blockOwner (geometry cfg) i = n).length =
      B / streamCount cfg + if n < B % streamCount cfg then 1 else 0

/-- R126: sample t of channel c is the int16 at PCM byte offset 2 × (t × cc + c), and there is nothing else in the PCM. -/
def Obligations.PcmInterleavePlacesEverySample : Prop :=
  ∀ (T : Nat) (Xs : List (List Sample)), (∀ X ∈ Xs, X.length = T) →
    (bytesOf (interleaveSamples T Xs)).length = 2 * (T * Xs.length) ∧
    ∀ (t c : Nat) (X : List Sample) (x : Sample), Xs[c]? = some X → X[t]? = some x →
      slice (bytesOf (interleaveSamples T Xs)) (2 * (t * Xs.length + c)) 2 = leBytes 2 x.toNat

/-- R127: channel c's sample t is the int16 at byte offset 2 × (t × cc + c), for each of the T = |P| / (2 × cc) sample frames; and
`pcm_interleave(pcm_deinterleave(P)) = P` for every PCM of whole sample frames. -/
def Obligations.PcmDeinterleaveIsInverse : Prop :=
  ∀ (cfg : Cfg) (P : List Byte), P.length % (2 * channelCount cfg) = 0 →
    (∀ c, c < channelCount cfg → (pcmChannel (geometry cfg) P c).length = P.length / (2 * channelCount cfg)) ∧
    (∀ c t, c < channelCount cfg → t < P.length / (2 * channelCount cfg) →
      (pcmChannel (geometry cfg) P c)[t]? = some (BitVec.ofNat 16 (memRead P (2 * (t * channelCount cfg + c)) 2))) ∧
    bytesOf (interleaveSamples (frameCount (geometry cfg) P)
      ((List.range (channelCount cfg)).map (pcmChannel (geometry cfg) P))) = P

/-- R141, R131: DECODE_CONTAINER completes on every configured container whose tail and headers the policies take. OUT is S records,
a u64 length and the PCM of each stream; stream n holds its ⌊B / S⌋ + (n < B mod S) blocks; the slot file, CFG and ERR stay. -/
def Obligations.DecodeContainerCompletes : Prop :=
  ∀ s : State, s.cfg.valid = true → s.cfg.Legal →
    (s.params.tailPolicy = .ignore ∨ s.inp.length % blockBytes s.cfg = 0) →
    (s.params.stepIndexPolicy = .clamp ∨
      ∀ i c k, i < s.inp.length / blockBytes s.cfg → c < channelCount s.cfg → k < chunksPerInterleave s.cfg →
        memRead s.inp (chunkOffset (geometry s.cfg) i c k + 2) 1 ≤ 0x58) →
    ∃ pcms : List (List Byte),
      exec .decodeContainer s = .next { s with
        inp := [],
        tx := some ⟨0#16 ++ s.err ++ 0#8, pcms.flatMap fun pcm => leBytes 8 pcm.length ++ pcm⟩ } ∧
      decodeContainer s.params (geometry s.cfg) s.inp = .ok pcms ∧
      pcms.length = s.cfg.scount.toNat ∧
      ∀ n pcm, pcms[n]? = some pcm → pcm.length =
        (s.inp.length / blockBytes s.cfg / s.cfg.scount.toNat +
          if n < s.inp.length / blockBytes s.cfg % s.cfg.scount.toNat then 1 else 0) *
        blockSamples s.cfg * channelCount s.cfg * 2

/-- R130, R124: block j of stream n's PCM is what container block j × S + n decodes to. R128, R123, R126: of a decoded block, the int16
at sample frame k × D + r of channel c is sample r of `decode_chunk` of the chunk_size bytes at offset(i, c, k), and the block holds
block_samples sample frames and nothing else. -/
def Obligations.StreamsHoldTheirOwnBlocks : Prop :=
  (∀ (p : Params) (cfg : Cfg) (C : List Byte) (pcms : List (List Byte)) (n j : Nat) (pcm : List Byte),
    cfg.valid = true → cfg.Legal → decodeContainer p (geometry cfg) C = .ok pcms → pcms[n]? = some pcm →
    j * streamCount cfg + n < C.length / blockBytes cfg →
    decodeBlock p.stepIndexPolicy (geometry cfg) C (j * streamCount cfg + n) =
      .ok (slice pcm (j * (blockSamples cfg * channelCount cfg * 2)) (blockSamples cfg * channelCount cfg * 2))) ∧
  (∀ (policy : StepIndexPolicy) (cfg : Cfg) (C b : List Byte) (i : Nat), decodeBlock policy (geometry cfg) C i = .ok b →
    b.length = blockSamples cfg * channelCount cfg * 2 ∧
    ∀ c k, c < channelCount cfg → k < chunksPerInterleave cfg → ∃ samples : List Sample,
      decodeChunk policy (geometry cfg) (slice C (chunkOffset (geometry cfg) i c k) (chunkSize cfg)) = .ok samples ∧
      samples.length = chunkSamples cfg ∧
      ∀ r x, samples[r]? = some x →
        slice b (2 * ((k * chunkSamples cfg + r) * channelCount cfg + c)) 2 = leBytes 2 x.toNat)

/-- R142, R133, R132: ENCODE_CONTAINER completes on every well-framed payload of whole sample frames that PAD_POLICY takes. OUT is
P_blocks × S × block_bytes bytes; only the slots s < S, c < cc may change; CFG and ERR stay. R135, R136: the states st 0, st 1, … of
one (stream, channel) begin at (0, INITIAL_STEP_INDEX), also when every record is empty (D17); chunk number m = j × chunks_per_interleave
+ k of the pair is `encode_chunk` of the D padded samples (R134) from m × D on, from state st m, which gives st (m + 1) and the
chunk_size bytes at offset(j × S + s, c, k); the last state is left in the slot. -/
def Obligations.EncodeContainerCompletes : Prop :=
  ∀ (s : State) (Ps : List (List Byte)), s.cfg.valid = true → s.cfg.Legal → Ps.length = s.cfg.scount.toNat →
    s.inp = Ps.flatMap (fun P => leBytes 4 P.length ++ P) →
    (∀ P ∈ Ps, P.length < 2 ^ 32 ∧ P.length % (2 * channelCount s.cfg) = 0) →
    (s.params.padPolicy ≠ .fault ∨
      ∀ P ∈ Ps, frameCount (geometry s.cfg) P = blocksPerStream (geometry s.cfg) Ps * blockSamples s.cfg) →
    ∃ (f : SlotFile) (C : List Byte),
      exec .encodeContainer s = .next { s with
        slots := f, inp := [], tx := some ⟨0#16 ++ s.err ++ 0#8, C⟩ } ∧
      encodeContainer s.params (geometry s.cfg) s.slots Ps = .ok (f, C) ∧
      C.length = blocksPerStream (geometry s.cfg) Ps * s.cfg.scount.toNat * blockBytes s.cfg ∧
      (∀ id : SlotId, (s.cfg.scount.toNat ≤ id.stream.val ∨ channelCount s.cfg ≤ id.chan.val) →
        readSlot f id = readSlot s.slots id) ∧
      ∀ (id : SlotId) (P : List Byte), Ps[id.stream.val]? = some P → id.chan.val < channelCount s.cfg →
        ∃ st : Nat → ChannelState,
          (st 0).pred.toInt = 0 ∧ (st 0).idx.toNat = s.params.initialStepIndex.val ∧
          readSlot f id = st (blocksPerStream (geometry s.cfg) Ps * chunksPerInterleave s.cfg) ∧
          ∀ j k, j < blocksPerStream (geometry s.cfg) Ps → k < chunksPerInterleave s.cfg →
            encodeChunk (geometry s.cfg) (st (j * chunksPerInterleave s.cfg + k))
                ((List.range (chunkSamples s.cfg)).map fun r => paddedSample s.params.padPolicy s.cfg P id.chan.val
                  ((j * chunksPerInterleave s.cfg + k) * chunkSamples s.cfg + r)) =
              .ok (st (j * chunksPerInterleave s.cfg + k + 1),
                slice C (chunkOffset (geometry s.cfg) (j * s.cfg.scount.toNat + id.stream.val) id.chan.val k) (chunkSize s.cfg))

/-- R132: P_blocks is the least number of interleave blocks that holds every sample frame of the longest stream. -/
def Obligations.BlockCountCoversTheLongestStream : Prop :=
  ∀ (cfg : Cfg) (Ps : List (List Byte)) (n : Nat),
    blocksPerStream (geometry cfg) Ps ≤ n ↔ ∀ P ∈ Ps, frameCount (geometry cfg) P ≤ n * blockSamples cfg

/-- R123, R133, R134: the two bytes at offset(i, c, k) of an encoded container are the leading sample of chunk (i, c, k), that of the
padded input: sample frame w = (seq(i) × chunks_per_interleave + k) × D of channel c of stream owner(i); past the stream's end the stream's
last sample under PadLast, and 0 under PadSilence and for a stream that holds none. -/
def Obligations.EncodedChunksHoldTheirLeadingSample : Prop :=
  ∀ (p : Params) (cfg : Cfg) (f f' : SlotFile) (Ps : List (List Byte)) (C P : List Byte) (i c k : Nat),
    cfg.valid = true → cfg.Legal → Ps.length = streamCount cfg →
    encodeContainer p (geometry cfg) f Ps = .ok (f', C) →
    i < blocksPerStream (geometry cfg) Ps * streamCount cfg → c < channelCount cfg → k < chunksPerInterleave cfg →
    Ps[i % streamCount cfg]? = some P →
    let w := (i / streamCount cfg * chunksPerInterleave cfg + k) * chunkSamples cfg
    let T := P.length / (2 * channelCount cfg)
    slice C (chunkOffset (geometry cfg) i c k) 2 =
      if w < T then slice P (2 * (w * channelCount cfg + c)) 2
      else if p.padPolicy = .padLast ∧ 0 < T then slice P (2 * ((T - 1) * channelCount cfg + c)) 2
      else [0, 0]

/-! ### 70_reset_and_hazards.md: the port, the host, reset; invariants of every step -/

/-- R185: a frame of which some bytes are missing waits, and the block changes nothing. -/
def Obligations.IncompleteFrameWaits : Prop :=
  ∀ (s : State) (h : Word) (payload : List Byte) (n : Nat), payload.length < 2 ^ 32 → n < 8 + payload.length →
    s.rx = (encodeFrame h payload).take n → s.host.todo = [] → step s = .next s

/-- R180, R181, R182, R33: the host's reset sets all four fields of CFG, every slot, ERR and the port to their reset values, discards a
partly received frame and an unread response, and keeps the parameters. That the reset comes when no complete frame waits, and
that the host is a list of moves, are the model's choice (log entry 8). -/
def Obligations.ResetMoveResetsTheBlock : Prop :=
  ∀ (s : State) (todo : List HostMove), parseFrame s.rx = none → s.host.todo = .reset :: todo →
    ∃ t, step s = .next t ∧ t.cfg = { valid := false, mono := false, rate := false, scount := 0 } ∧ t.err = 0 ∧ t.rx = [] ∧ t.inp = [] ∧ t.tx = none ∧
      t.params = s.params ∧ t.host = { s.host with todo := todo } ∧
      ∀ id, (readSlot t.slots id).pred.toInt = 0 ∧ (readSlot t.slots id).idx.toNat = s.params.initialStepIndex.val

/-- R184: the host reads the whole pending response; responses are received in command order. -/
def Obligations.ReadingTakesTheResponse : Prop :=
  ∀ (s : State) (todo : List HostMove) (r : Response),
    parseFrame s.rx = none → s.host.todo = .readResponse :: todo → s.tx = some r →
    step s = .next { s with tx := none, host := { todo := todo, seen := s.host.seen ++ [r] } }

/-- R28, R21, R30: every step keeps the state invariant, from every state that meets it. -/
def Obligations.StepKeepsTheInvariant : Prop :=
  ∀ s t : State, s.Inv → step s = .next t → t.Inv

/-- The invariants hold right after reset, for any parameters and any host (R33). -/
def Obligations.ResetMeetsTheInvariants : Prop :=
  ∀ (p : Params) (h : HostAgent), (State.afterReset p h).Inv ∧ (State.afterReset p h).PortInv

/-- R184: every step keeps the port invariant, and a step is refused only when the host's next move is to send bytes while a
response is unread, or past the end of the frame on the port. R185, R193: when no complete frame waits, any other send puts its bytes
behind the bytes received, and changes nothing else (the host as a list of moves is log entry 8's choice, the refusal entry 5's). -/
def Obligations.OnlyAnEarlyHostIsRefused : Prop :=
  (∀ s : State, s.PortInv →
    (∃ t, step s = .next t ∧ t.PortInv) ∨
    (step s = .refused .frameBeforeResponseRead ∧ ∃ bytes todo, s.host.todo = .send bytes :: todo ∧ bytes ≠ [] ∧
      (s.tx.isSome = true ∨ overlong (s.rx ++ bytes) = true))) ∧
  (∀ (s : State) (bytes : List Byte) (todo : List HostMove), parseFrame s.rx = none → s.host.todo = .send bytes :: todo →
    (bytes = [] ∨ (s.tx = none ∧ overlong (s.rx ++ bytes) = false)) →
    step s = .next { s with rx := s.rx ++ bytes, host := { s.host with todo := todo } })

/-- R30, R167, R182: no step changes the parameters, and a step that clears an ERR bit is the host's reset: no complete frame waits to
be run, and the host's next move is reset. -/
def Obligations.ErrIsClearedOnlyByReset : Prop :=
  ∀ s t : State, step s = .next t →
    t.params = s.params ∧
    ((∀ b : Nat, s.err.getLsbD b = true → t.err.getLsbD b = true) ∨
      (parseFrame s.rx = none ∧ s.host.todo.head? = some .reset))
end

