-- ==== Sys2Proof/Laws/State.lean ====
section
/-! SUPPORT. Field by field, what each update of `State` leaves: true by `rfl`, so that no later proof unfolds a record update. -/

namespace Sys2Proof.Machine

@[simp] theorem respond_params (r : Response) (s : State) : (respond r s).params = s.params := rfl
@[simp] theorem respond_cfg (r : Response) (s : State) : (respond r s).cfg = s.cfg := rfl
@[simp] theorem respond_slots (r : Response) (s : State) : (respond r s).slots = s.slots := rfl
@[simp] theorem respond_err (r : Response) (s : State) : (respond r s).err = s.err := rfl
@[simp] theorem respond_rx (r : Response) (s : State) : (respond r s).rx = s.rx := rfl
@[simp] theorem respond_inp (r : Response) (s : State) : (respond r s).inp = [] := rfl
@[simp] theorem respond_tx (r : Response) (s : State) : (respond r s).tx = some r := rfl
@[simp] theorem respond_host (r : Response) (s : State) : (respond r s).host = s.host := rfl

@[simp] theorem raised_params (k : ErrKind) (s : State) : (raised k s).params = s.params := rfl
@[simp] theorem raised_cfg (k : ErrKind) (s : State) : (raised k s).cfg = s.cfg := rfl
@[simp] theorem raised_slots (k : ErrKind) (s : State) : (raised k s).slots = s.slots := rfl
@[simp] theorem raised_err (k : ErrKind) (s : State) : (raised k s).err = s.err ||| errBit k := rfl
@[simp] theorem raised_rx (k : ErrKind) (s : State) : (raised k s).rx = s.rx := rfl
@[simp] theorem raised_inp (k : ErrKind) (s : State) : (raised k s).inp = [] := rfl
@[simp] theorem raised_tx (k : ErrKind) (s : State) : (raised k s).tx = some { status := statusWord (errorCode k) (s.err ||| errBit k), out := [] } := rfl
@[simp] theorem raised_host (k : ErrKind) (s : State) : (raised k s).host = s.host := rfl

@[simp] theorem succeeded_params (out : List Byte) (s : State) : (succeeded out s).params = s.params := rfl
@[simp] theorem succeeded_cfg (out : List Byte) (s : State) : (succeeded out s).cfg = s.cfg := rfl
@[simp] theorem succeeded_slots (out : List Byte) (s : State) : (succeeded out s).slots = s.slots := rfl
@[simp] theorem succeeded_err (out : List Byte) (s : State) : (succeeded out s).err = s.err := rfl
@[simp] theorem succeeded_rx (out : List Byte) (s : State) : (succeeded out s).rx = s.rx := rfl
@[simp] theorem succeeded_inp (out : List Byte) (s : State) : (succeeded out s).inp = [] := rfl
@[simp] theorem succeeded_tx (out : List Byte) (s : State) : (succeeded out s).tx = some { status := statusWord 0 s.err, out := out } := rfl
@[simp] theorem succeeded_host (out : List Byte) (s : State) : (succeeded out s).host = s.host := rfl

@[simp] theorem acceptFrame_params (payload rest : List Byte) (s : State) : (acceptFrame payload rest s).params = s.params := rfl
@[simp] theorem acceptFrame_cfg (payload rest : List Byte) (s : State) : (acceptFrame payload rest s).cfg = s.cfg := rfl
@[simp] theorem acceptFrame_slots (payload rest : List Byte) (s : State) : (acceptFrame payload rest s).slots = s.slots := rfl
@[simp] theorem acceptFrame_err (payload rest : List Byte) (s : State) : (acceptFrame payload rest s).err = s.err := rfl
@[simp] theorem acceptFrame_rx (payload rest : List Byte) (s : State) : (acceptFrame payload rest s).rx = rest := rfl
@[simp] theorem acceptFrame_inp (payload rest : List Byte) (s : State) : (acceptFrame payload rest s).inp = payload := rfl
@[simp] theorem acceptFrame_tx (payload rest : List Byte) (s : State) : (acceptFrame payload rest s).tx = s.tx := rfl
@[simp] theorem acceptFrame_host (payload rest : List Byte) (s : State) : (acceptFrame payload rest s).host = s.host := rfl

@[simp] theorem hostRead_params (r : Response) (s : State) : (hostRead r s).params = s.params := rfl
@[simp] theorem hostRead_cfg (r : Response) (s : State) : (hostRead r s).cfg = s.cfg := rfl
@[simp] theorem hostRead_slots (r : Response) (s : State) : (hostRead r s).slots = s.slots := rfl
@[simp] theorem hostRead_err (r : Response) (s : State) : (hostRead r s).err = s.err := rfl
@[simp] theorem hostRead_rx (r : Response) (s : State) : (hostRead r s).rx = s.rx := rfl
@[simp] theorem hostRead_inp (r : Response) (s : State) : (hostRead r s).inp = s.inp := rfl
@[simp] theorem hostRead_tx (r : Response) (s : State) : (hostRead r s).tx = none := rfl
@[simp] theorem hostRead_host (r : Response) (s : State) : (hostRead r s).host = { s.host with seen := s.host.seen ++ [r] } := rfl

@[simp] theorem hostReset_params (s : State) : (hostReset s).params = s.params := rfl
@[simp] theorem hostReset_cfg (s : State) : (hostReset s).cfg = { valid := false, mono := false, rate := false, scount := 0 } := rfl
@[simp] theorem hostReset_slots (s : State) : (hostReset s).slots = fillSlots (freshChannelState s.params) := rfl
@[simp] theorem hostReset_err (s : State) : (hostReset s).err = 0 := rfl
@[simp] theorem hostReset_rx (s : State) : (hostReset s).rx = [] := rfl
@[simp] theorem hostReset_inp (s : State) : (hostReset s).inp = [] := rfl
@[simp] theorem hostReset_tx (s : State) : (hostReset s).tx = none := rfl
@[simp] theorem hostReset_host (s : State) : (hostReset s).host = s.host := rfl

@[simp] theorem withFetchWord_params (s : State) (nbits w : Nat) : (s.withFetchWord nbits w).params = s.params := rfl
@[simp] theorem withFetchWord_cfg (s : State) (nbits w : Nat) : (s.withFetchWord nbits w).cfg = s.cfg := rfl
@[simp] theorem withFetchWord_slots (s : State) (nbits w : Nat) : (s.withFetchWord nbits w).slots = s.slots := rfl
@[simp] theorem withFetchWord_err (s : State) (nbits w : Nat) : (s.withFetchWord nbits w).err = s.err := rfl
@[simp] theorem withFetchWord_rx (s : State) (nbits w : Nat) : (s.withFetchWord nbits w).rx = tableFrame nbits w := rfl
@[simp] theorem withFetchWord_inp (s : State) (nbits w : Nat) : (s.withFetchWord nbits w).inp = s.inp := rfl
@[simp] theorem withFetchWord_tx (s : State) (nbits w : Nat) : (s.withFetchWord nbits w).tx = none := rfl
@[simp] theorem withFetchWord_host (s : State) (nbits w : Nat) : (s.withFetchWord nbits w).host = s.host := rfl

@[simp] theorem afterReset_params (p : Params) (h : HostAgent) : (State.afterReset p h).params = p := rfl
@[simp] theorem afterReset_slots (p : Params) (h : HostAgent) :
    (State.afterReset p h).slots = fillSlots (freshChannelState p) := rfl
@[simp] theorem afterReset_err (p : Params) (h : HostAgent) : (State.afterReset p h).err = 0 := rfl
@[simp] theorem afterReset_valid (p : Params) (h : HostAgent) : (State.afterReset p h).cfg.valid = false := rfl
@[simp] theorem afterReset_rx (p : Params) (h : HostAgent) : (State.afterReset p h).rx = [] := rfl
@[simp] theorem afterReset_inp (p : Params) (h : HostAgent) : (State.afterReset p h).inp = [] := rfl
@[simp] theorem afterReset_tx (p : Params) (h : HostAgent) : (State.afterReset p h).tx = none := rfl
@[simp] theorem afterReset_host (p : Params) (h : HostAgent) : (State.afterReset p h).host = h := rfl

/-! ### The fields of GEOM -/

@[simp] theorem geometry_frequency (c : Cfg) : (geometry c).frequency = frequency c := rfl
@[simp] theorem geometry_channelCount (c : Cfg) : (geometry c).channelCount = channelCount c := rfl
@[simp] theorem geometry_chunkSize (c : Cfg) : (geometry c).chunkSize = chunkSize c := rfl
@[simp] theorem geometry_chunksPerInterleave (c : Cfg) : (geometry c).chunksPerInterleave = chunksPerInterleave c := rfl
@[simp] theorem geometry_payloadBytes (c : Cfg) : (geometry c).payloadBytes = payloadBytes c := rfl
@[simp] theorem geometry_chunkSamples (c : Cfg) : (geometry c).chunkSamples = chunkSamples c := rfl
@[simp] theorem geometry_blockSamples (c : Cfg) : (geometry c).blockSamples = blockSamples c := rfl
@[simp] theorem geometry_blockBytes (c : Cfg) : (geometry c).blockBytes = blockBytes c := rfl
@[simp] theorem geometry_streamCount (c : Cfg) : (geometry c).streamCount = streamCount c := rfl
@[simp] theorem geometry_interleaveSize (c : Cfg) : (geometry c).interleaveSize = 65536 := rfl

end Sys2Proof.Machine
end

