-- ==== Sys2Proof/Laws/Ops.lean ====
section
/-! SUPPORT. What each shared operation can do, once: the slot accessors, ending a command, the checks, the two loops. -/

namespace Sys2Proof.Machine

/-! ### The slot file -/

theorem slotId_index_inj {a b : SlotId} (h : a.index = b.index) : a = b := by
  obtain ⟨⟨s, hs⟩, ⟨c, hc⟩⟩ := a
  obtain ⟨⟨s', hs'⟩, ⟨c', hc'⟩⟩ := b
  simp only [SlotId.index, Fin.mk.injEq] at h
  have h1 : s = s' := by omega
  have h2 : c = c' := by omega
  simp [h1, h2]

@[simp] theorem readSlot_writeSlot_same (f : SlotFile) (id : SlotId) (v : ChannelState) :
    readSlot (writeSlot f id v) id = v := by
  simp [readSlot, writeSlot]

@[simp] theorem readSlot_writeSlot_other (f : SlotFile) {a b : SlotId} (v : ChannelState) (h : a ≠ b) :
    readSlot (writeSlot f a v) b = readSlot f b := by
  have hne : a.index.val ≠ b.index.val := fun e => h (slotId_index_inj (Fin.ext e))
  simp [readSlot, writeSlot, Vector.getElem_set_ne, hne]

@[simp] theorem readSlot_fillSlots (v : ChannelState) (id : SlotId) : readSlot (fillSlots v) id = v := by
  simp [readSlot, fillSlots]

@[simp] theorem writeSlot_writeSlot (f : SlotFile) (id : SlotId) (v w : ChannelState) :
    writeSlot (writeSlot f id v) id w = writeSlot f id w := by
  apply Vector.ext
  intro n hn
  by_cases h : id.index.val = n <;> simp [writeSlot, h]

theorem mem_allSlots (id : SlotId) : id ∈ allSlots := by
  obtain ⟨s, c⟩ := id
  fin_cases s <;> fin_cases c <;> decide

/-- Every place of the file is some slot. -/
theorem index_surj (n : Fin 12) : ∃ id : SlotId, id.index = n :=
  ⟨⟨⟨n.val / 2, by omega⟩, ⟨n.val % 2, by omega⟩⟩, by ext; simp [SlotId.index]; omega⟩

/-- A predicate on every place of the file is a predicate on every slot. -/
theorem forall_slots_iff (f : SlotFile) (p : ChannelState → Prop) :
    (∀ n : Fin 12, p (f[n.val])) ↔ ∀ id, p (readSlot f id) := by
  refine ⟨fun h id => h id.index, fun h n => ?_⟩
  obtain ⟨id, rfl⟩ := index_surj n
  exact h id

/-! ### Ending a command -/

/-- The one lemma about a command's end: it always answers a next state, of one of two forms. -/
theorem complete_cases (s : State) (e : Effect) :
    (∃ k, e = .error k ∧ complete s e = .next (raised k s)) ∨
    (∃ t out, e = .ok (t, out) ∧ complete s e = .next (succeeded out t)) := by
  cases e with
  | error k => exact .inl ⟨k, rfl, rfl⟩
  | ok r => exact .inr ⟨r.1, r.2, rfl, rfl⟩

@[simp] theorem complete_error (s : State) (k : ErrKind) : complete s (.error k) = .next (raised k s) := rfl

@[simp] theorem complete_ok (s t : State) (out : List Byte) : complete s (.ok (t, out)) = .next (succeeded out t) := rfl

/-! ### Checks: `Except` computations step by step -/

@[simp] theorem require_true (k : ErrKind) : require true k = .ok () := rfl

@[simp] theorem require_false (k : ErrKind) : require false k = .error k := rfl

@[simp] theorem except_ok_bind {α β : Type} (a : α) (f : α → Except ErrKind β) : (Except.ok a >>= f) = f a := rfl

@[simp] theorem except_error_bind {α β : Type} (k : ErrKind) (f : α → Except ErrKind β) :
    ((Except.error k : Except ErrKind α) >>= f) = .error k := rfl

@[simp] theorem except_pure {α : Type} (a : α) : (pure a : Except ErrKind α) = .ok a := rfl

/-- What a bind that succeeds has done. -/
theorem except_bind_ok {α β : Type} {x : Except ErrKind α} {f : α → Except ErrKind β} {b : β} :
    (x >>= f) = .ok b ↔ ∃ a, x = .ok a ∧ f a = .ok b := by
  cases x <;> simp

theorem require_ok {p : Bool} {k : ErrKind} {u : Unit} : require p k = .ok u ↔ p = true := by
  cases p <;> simp [require]

/-- The slot operand of a slot that exists. -/
@[simp] theorem slotOperand_slot (id : SlotId) : slotOperand id.stream.val id.chan.val = .ok id := by
  have h : id.stream.val ≤ 5 ∧ id.chan.val ≤ 1 := by omega
  simp [slotOperand, h]

theorem slotOperand_ok {stream chan : Nat} {id : SlotId} (h : slotOperand stream chan = .ok id) :
    stream = id.stream.val ∧ chan = id.chan.val := by
  unfold slotOperand at h
  split at h
  · cases h; exact ⟨rfl, rfl⟩
  · cases h

theorem slotOperand_out {stream chan : Nat} (h : 5 < stream ∨ 1 < chan) :
    slotOperand stream chan = .error .illegalCommand := by
  have : ¬(stream ≤ 5 ∧ chan ≤ 1) := by omega
  simp [slotOperand, this]

theorem configured_ok {s : State} {g : Geometry} (h : configured s = .ok g) :
    s.cfg.valid = true ∧ g = geometry s.cfg := by
  unfold configured at h
  cases hv : s.cfg.valid
  · rw [hv] at h; simp at h
  · rw [hv] at h
    simp only [require_true, except_ok_bind, except_pure, Except.ok.injEq] at h
    exact ⟨rfl, h.symm⟩

/-! ### The loops -/

theorem tryMap_cons {α β : Type} (f : α → Except ErrKind β) (a : α) (as : List α) {bs : List β} :
    tryMap f (a :: as) = .ok bs ↔ ∃ b bs', f a = .ok b ∧ tryMap f as = .ok bs' ∧ bs = b :: bs' := by
  simp only [tryMap]
  cases f a with
  | error k => simp
  | ok b =>
    cases tryMap f as with
    | error k => simp
    | ok bs' => simp [eq_comm]

/-- A loop that succeeds has one result for each turn. -/
theorem tryMap_length {α β : Type} {f : α → Except ErrKind β} {as : List α} {bs : List β}
    (h : tryMap f as = .ok bs) : bs.length = as.length := by
  induction as generalizing bs with
  | nil => cases h; rfl
  | cons a as ih =>
    obtain ⟨b, bs', -, h', rfl⟩ := (tryMap_cons f a as).mp h
    simp [ih h']

@[simp] theorem emitOver_nil {σ α β : Type} (f : σ → α → σ × List β) (st : σ) : emitOver f st [] = (st, []) := rfl

@[simp] theorem emitOver_cons {σ α β : Type} (f : σ → α → σ × List β) (st : σ) (a : α) (as : List α) :
    emitOver f st (a :: as) =
      ((emitOver f (f st a).1 as).1, (f st a).2 ++ (emitOver f (f st a).1 as).2) := rfl

/-- A walk over two lists in a row is the first walk and then the second, from where the first ended. -/
theorem emitOver_append {σ α β : Type} (f : σ → α → σ × List β) (st : σ) (as as' : List α) :
    emitOver f st (as ++ as') =
      ((emitOver f (emitOver f st as).1 as').1, (emitOver f st as).2 ++ (emitOver f (emitOver f st as).1 as').2) := by
  induction as generalizing st with
  | nil => simp
  | cons a as ih => simp [ih]

/-- What every turn of a walk keeps, the walk keeps. -/
theorem emitOver_keeps {σ α β : Type} {f : σ → α → σ × List β} {p : σ → Prop}
    (hf : ∀ st a, p st → p (f st a).1) {st : σ} (as : List α) (h : p st) : p (emitOver f st as).1 := by
  induction as generalizing st with
  | nil => exact h
  | cons a as ih => exact ih (hf st a h)

/-- A walk whose every turn emits n items emits n items a turn. -/
theorem emitOver_length {σ α β : Type} {f : σ → α → σ × List β} {n : Nat} (hf : ∀ st a, (f st a).2.length = n)
    (st : σ) (as : List α) : (emitOver f st as).2.length = n * as.length := by
  induction as generalizing st with
  | nil => simp
  | cons a as ih => simp [ih, hf, Nat.mul_succ, Nat.add_comm]

/-- Turn n of a loop that succeeds gave its result n. -/
theorem tryMap_getElem {α β : Type} {f : α → Except ErrKind β} {as : List α} {bs : List β}
    (h : tryMap f as = .ok bs) {n : Nat} {a : α} (ha : as[n]? = some a) : ∃ b, bs[n]? = some b ∧ f a = .ok b := by
  induction as generalizing bs n with
  | nil => simp at ha
  | cons a' as ih =>
    obtain ⟨b, bs', hb, h', rfl⟩ := (tryMap_cons f a' as).mp h
    cases n with
    | zero => obtain rfl := Option.some.inj ha; exact ⟨b, rfl, hb⟩
    | succ n => exact ih h' ha

/-- What the first turns of a walk keep, each under what it says of its turn, they keep. -/
theorem emitOver_keeps_mem {σ α β : Type} {f : σ → α → σ × List β} {p : σ → Prop} (as : List α)
    (hf : ∀ st a, a ∈ as → p st → p (f st a).1) {st : σ} (h : p st) : p (emitOver f st as).1 := by
  induction as generalizing st with
  | nil => exact h
  | cons a as ih => exact ih (fun st a ha => hf st a (by simp [ha])) (hf st a (by simp) h)

/-- Turn n of a walk runs from the state its first n turns left, and leaves the state of its first n + 1. -/
theorem emitOver_take_succ {σ α β : Type} (f : σ → α → σ × List β) (st : σ) {as : List α} {n : Nat} {a : α}
    (ha : as[n]? = some a) : (emitOver f st (as.take (n + 1))).1 = (f (emitOver f st (as.take n)).1 a).1 := by
  rw [List.take_add_one, ha, emitOver_append]
  rfl

/-- Where every turn of a walk emits N items, turn n's are the items from N · n on, from the state its first n turns left. -/
theorem emitOver_turn {σ α β : Type} {f : σ → α → σ × List β} {N : Nat} {as : List α}
    (hf : ∀ st, ∀ a ∈ as, (f st a).2.length = N) (st : σ) {n : Nat} {a : α} (ha : as[n]? = some a) :
    ((emitOver f st as).2.drop (N * n)).take N = (f (emitOver f st (as.take n)).1 a).2 := by
  induction as generalizing st n with
  | nil => simp at ha
  | cons a' as ih =>
    have h0 : (f st a').2.length = N := hf st a' (by simp)
    cases n with
    | zero =>
      obtain rfl := Option.some.inj ha
      simp [← h0]
    | succ n =>
      have hn : as[n]? = some a := ha
      have e := ih (fun st a ha => hf st a (by simp [ha])) (f st a').1 hn
      simp only [emitOver_cons, List.take_succ_cons]
      rw [Nat.mul_succ, Nat.add_comm, ← List.drop_drop, List.drop_left' h0]
      exact e

end Sys2Proof.Machine
end

