-- ==== Sys2Proof/Laws/Codec.lean ====
section
/-! SUPPORT. Arithmetic of the codec: what the narrowed values are, byte order, and that every stored channel state is legal. -/

namespace Sys2Proof.Machine

/-! ### Narrowing (00_scope.md R8, R11) -/

theorem clip16_bounds (v : Int) : -32768 ≤ clip16 v ∧ clip16 v ≤ 32767 := by unfold clip16; omega

theorem clampIdx_bounds (v : Int) : 0 ≤ clampIdx v ∧ clampIdx v ≤ 88 := by unfold clampIdx; omega

/-- A clipped value fits the int32 it is stored in. -/
@[simp] theorem clip16_bmod32 (v : Int) : (clip16 v).bmod 4294967296 = clip16 v := by
  have h := clip16_bounds v
  rw [Int.bmod_def]
  omega

/-- A clipped value fits the int16 it is emitted in. -/
@[simp] theorem clip16_bmod16 (v : Int) : (clip16 v).bmod 65536 = clip16 v := by
  have h := clip16_bounds v
  rw [Int.bmod_def]
  omega

/-- A clamped step index fits the int16 it is stored in. -/
@[simp] theorem clampIdx_bmod16 (v : Int) : (clampIdx v).bmod 65536 = clampIdx v := by
  have h := clampIdx_bounds v
  rw [Int.bmod_def]
  omega

/-- An int16 sample keeps its value in an int32 predictor. -/
@[simp] theorem toInt_signExtend (x : Sample) : (x.signExtend 32).toInt = x.toInt :=
  BitVec.toInt_signExtend_of_le (by decide)

theorem sample_bounds (x : Sample) : -32768 ≤ x.toInt ∧ x.toInt ≤ 32767 := by
  have h1 := @BitVec.le_toInt 16 x
  have h2 := @BitVec.toInt_lt 16 x
  norm_num at h1 h2
  omega

/-! ### Every stored channel state is legal (10_state.md R28) -/

@[simp] theorem settle_pred_toInt (st : ChannelState) (n : Nibble) (p : Int) : (settle st n p).pred.toInt = clip16 p := by
  simp [settle]

@[simp] theorem settle_idx_toInt (st : ChannelState) (n : Nibble) (p : Int) :
    (settle st n p).idx.toInt = clampIdx (st.idx.toInt + indexMove n) := by
  simp [settle, advance]

theorem settle_legal (st : ChannelState) (n : Nibble) (p : Int) : (settle st n p).Legal := by
  have h1 := clip16_bounds p
  have h2 := clampIdx_bounds (st.idx.toInt + indexMove n)
  simp only [ChannelState.Legal, settle_pred_toInt, settle_idx_toInt]
  exact ⟨h1.1, h1.2, h2⟩

theorem expandNibble_legal (st : ChannelState) (n : Nibble) : (expandNibble st n).1.Legal := settle_legal ..

theorem compressSample_legal (st : ChannelState) (x : Sample) : (compressSample st x).1.Legal := settle_legal ..

theorem freshChannelState_legal (p : Params) : (freshChannelState p).Legal := by
  have h := p.initialStepIndex.isLt
  have hi : (freshChannelState p).idx.toInt = p.initialStepIndex.val := by
    simp only [freshChannelState]
    rw [BitVec.toInt_eq_toNat_bmod, BitVec.toNat_ofNat, Int.bmod_def]
    omega
  have hp : (freshChannelState p).pred.toInt = 0 := by rfl
  simp only [ChannelState.Legal, hi, hp]
  omega

/-! ### Little-endian numbers (00_scope.md R12) -/

@[simp] theorem leBytes_length (n v : Nat) : (leBytes n v).length = n := by
  induction n generalizing v with
  | zero => rfl
  | succ n ih => simp [leBytes, ih]

/-- Reading what was written gives it back, modulo its width. -/
theorem leNat_leBytes (n v : Nat) : leNat (leBytes n v) = v % 256 ^ n := by
  induction n generalizing v with
  | zero => simp [leBytes, leNat, Nat.mod_one]
  | succ n ih =>
    rw [leBytes, leNat, ih, BitVec.toNat_ofNat, Nat.pow_succ (n := 256), Nat.mul_comm (256 ^ n) 256, Nat.mod_mul]

@[simp] theorem bytes16_length (x : Sample) : (bytes16 x).length = 2 := by simp [bytes16]

@[simp] theorem bytesOf_length (xs : List Sample) : (bytesOf xs).length = 2 * xs.length := by
  induction xs with
  | nil => rfl
  | cons x xs ih => simp [bytesOf] at ih ⊢; omega

@[simp] theorem bytesOf_cons (x : Sample) (xs : List Sample) : bytesOf (x :: xs) = bytes16 x ++ bytesOf xs := rfl

@[simp] theorem headerEncode_length (st : ChannelState) : (headerEncode st).length = 4 := rfl

/-- The decoder emits two samples for each packed byte. -/
theorem expandBytes_length (st : ChannelState) (bs : List Byte) : (expandBytes st bs).2.length = 2 * bs.length :=
  emitOver_length (n := 2) (fun _ _ => rfl) st bs

/-- The encoder emits one byte for each pair of samples. -/
theorem compressPairs_length (st : ChannelState) (xs : List Sample) (n : Nat) (h : xs.length = 2 * n) :
    (compressPairs st xs).2.length = n := by
  induction n generalizing st xs with
  | zero => obtain rfl : xs = [] := List.length_eq_zero_iff.mp (by omega); rfl
  | succ n ih =>
    match xs with
    | [] => simp at h
    | [_] => simp at h; omega
    | x1 :: x2 :: xs => simpa [compressPairs] using ih _ xs (by simpa [Nat.mul_succ] using h)

/-- Compressing any samples leaves a legal channel state legal. -/
theorem compressPairs_legal (st : ChannelState) (xs : List Sample) (h : st.Legal) : (compressPairs st xs).1.Legal := by
  induction st, xs using compressPairs.induct with
  | case1 st x1 x2 xs st1 n1 h1 st2 n2 h2 last bs hr ih =>
    simp only [compressPairs, h1, h2]
    exact ih (by have := compressSample_legal st1 x2; rwa [h2] at this)
  | case2 st xs hx =>
    unfold compressPairs
    split
    · exact absurd rfl (hx _ _ _)
    · exact h

/-- `encode_chunk` leaves a slot with a legal step index legal (10_state.md R28). -/
theorem encodeWindow_legal (st : ChannelState) (S : List Sample) (h : st.Legal) : (encodeWindow st S).1.Legal := by
  match S with
  | [] => exact h
  | x0 :: xs =>
    refine compressPairs_legal _ xs ?_
    have hx := sample_bounds x0
    simpa [ChannelState.Legal, hx] using h.2.2

end Sys2Proof.Machine
end

