-- ==== Sys2Proof/Laws/Step.lean ====
section
/-! SUPPORT. What a command and what a step can do: the inversion lemmas that later proofs cite instead of unfolding them. -/

namespace Sys2Proof.Machine

/-- What each instruction's rule computes, before the command ends. -/
def effect (i : Instr) (s : State) : Effect :=
  match i with
  | .configure mono rate scount => configureEffect mono rate scount s
  | .geometry => geometryEffect s
  | .locate chan chunk => locateEffect chan chunk s
  | .initStates => initStatesEffect s
  | .writeState stream chan pred => writeStateEffect stream chan pred s
  | .readState stream chan => readStateEffect stream chan s
  | .expand stream chan nib => expandEffect stream chan nib s
  | .compress stream chan sample => compressEffect stream chan sample s
  | .decodeChunk => decodeChunkEffect s
  | .encodeChunk stream chan => encodeChunkEffect stream chan s
  | .decodeContainer => decodeContainerEffect s
  | .encodeContainer => encodeContainerEffect s

/-- Every meaning ends in the one operation `complete`. -/
theorem exec_eq_complete (i : Instr) (s : State) : exec i s = complete s (effect i s) := by
  cases i <;> rfl

/-- What `exec` can answer: the raise of some kind, or the success of what the rule computed. -/
theorem exec_cases {i : Instr} {s t : State} (h : exec i s = .next t) :
    (∃ k, effect i s = .error k ∧ t = raised k s) ∨ (∃ u out, effect i s = .ok (u, out) ∧ t = succeeded out u) := by
  rw [exec_eq_complete] at h
  rcases complete_cases s (effect i s) with ⟨k, hk, hc⟩ | ⟨u, out, hu, hc⟩
  · rw [hc] at h; cases h; exact .inl ⟨k, hk, rfl⟩
  · rw [hc] at h; cases h; exact .inr ⟨u, out, hu, rfl⟩

/-- What a step of the block can do: run the frame's command, or raise IllegalCommand for a word that is none. -/
theorem runFrame_cases {h : Word} {payload rest : List Byte} {s t : State} (hr : runFrame h payload rest s = .next t) :
    s.tx = none ∧
      ((∃ i, decode h = .ok i ∧ exec i (acceptFrame payload rest s) = .next t) ∨
       (∃ e, decode h = .error e ∧ t = raised .illegalCommand (acceptFrame payload rest s))) := by
  unfold runFrame at hr
  split at hr
  · cases hr
  · rename_i htx
    refine ⟨by simpa using htx, ?_⟩
    unfold runHeader at hr
    split at hr
    · rename_i e he
      cases hr
      exact .inr ⟨e, he, rfl⟩
    · rename_i i hi
      exact .inl ⟨i, hi, hr⟩

/-- What a move of the host can do: nothing to do or nothing to read yet, sending, reading, resetting. -/
theorem hostTurn_cases {s t : State} (h : hostTurn s = .next t) :
    t = s ∨
    (∃ bytes todo, s.host.todo = .send bytes :: todo ∧ (bytes = [] ∨ (s.tx = none ∧ overlong (s.rx ++ bytes) = false)) ∧
      t = { s with rx := s.rx ++ bytes, host := { s.host with todo := todo } }) ∨
    (∃ todo r, s.host.todo = .readResponse :: todo ∧ s.tx = some r ∧
      t = { s with tx := none, host := { todo := todo, seen := s.host.seen ++ [r] } }) ∨
    (∃ todo, s.host.todo = .reset :: todo ∧ t = State.afterReset s.params { s.host with todo := todo }) := by
  unfold hostTurn at h
  split at h
  · cases h; exact .inl rfl
  · rename_i bytes todo htodo
    unfold hostSend at h
    split at h
    · cases h
    · rename_i hc
      cases h
      refine .inr (.inl ⟨bytes, todo, htodo, ?_, rfl⟩)
      cases bytes with
      | nil => exact .inl rfl
      | cons b bs => right; simpa using hc
  · rename_i todo htodo
    split at h
    · cases h; exact .inl rfl
    · rename_i r hr
      cases h
      exact .inr (.inr (.inl ⟨todo, r, htodo, hr, rfl⟩))
  · rename_i todo htodo
    cases h
    exact .inr (.inr (.inr ⟨todo, htodo, rfl⟩))

/-- What a step can do. -/
theorem step_cases {s t : State} (h : step s = .next t) :
    (∃ w payload rest, parseFrame s.rx = some (w, payload, rest) ∧ runFrame w payload rest s = .next t) ∨
    (parseFrame s.rx = none ∧ hostTurn s = .next t) := by
  unfold step at h
  split at h
  · rename_i hp; exact .inr ⟨hp, h⟩
  · rename_i w payload rest hp; exact .inl ⟨w, payload, rest, hp, h⟩

end Sys2Proof.Machine
end

