-- ==== Sys2Proof/Laws/Effects.lean ====
section
/-! SUPPORT. What each command's rule has done when it succeeds: one inversion lemma per command, and their common frame. -/

namespace Sys2Proof.Machine

theorem payloadIs_ok {n : Nat} {s : State} {u : Unit} (h : payloadIs n s = .ok u) : s.inp.length = n := by
  simpa [payloadIs] using require_ok.mp h

theorem configureEffect_ok {mono rate : Bool} {n : Nat} {s u : State} {out : List Byte}
    (h : configureEffect mono rate n s = .ok (u, out)) :
    s.inp.length = 0 ∧ 1 ≤ n ∧ n ≤ 6 ∧
      u = { s with cfg := { valid := true, mono := mono, rate := rate, scount := BitVec.ofNat 3 n } } ∧ out = [] := by
  simp only [configureEffect, except_bind_ok, except_pure, Except.ok.injEq, Prod.mk.injEq] at h
  obtain ⟨_, h1, _, h2, rfl, rfl⟩ := h
  have h3 := require_ok.mp h2
  simp only [Bool.and_eq_true, decide_eq_true_eq] at h3
  exact ⟨payloadIs_ok h1, h3.1, h3.2, rfl, rfl⟩

theorem geometryEffect_ok {s u : State} {out : List Byte} (h : geometryEffect s = .ok (u, out)) :
    s.inp.length = 0 ∧ s.cfg.valid = true ∧ u = s ∧ out = (geometryWords (geometry s.cfg)).flatMap (leBytes 4) := by
  simp only [geometryEffect, except_bind_ok, except_pure, Except.ok.injEq, Prod.mk.injEq] at h
  obtain ⟨_, h1, g, h2, rfl, rfl⟩ := h
  obtain ⟨hv, rfl⟩ := configured_ok h2
  exact ⟨payloadIs_ok h1, hv, rfl, rfl⟩

theorem locateEffect_ok {c k : Nat} {s u : State} {out : List Byte} (h : locateEffect c k s = .ok (u, out)) :
    s.inp.length = 4 ∧ s.cfg.valid = true ∧ c < channelCount s.cfg ∧ k < chunksPerInterleave s.cfg ∧ u = s := by
  simp only [locateEffect, except_bind_ok, except_pure, Except.ok.injEq, Prod.mk.injEq] at h
  obtain ⟨_, h1, g, h2, _, h3, rfl, -⟩ := h
  obtain ⟨hv, rfl⟩ := configured_ok h2
  have h4 := require_ok.mp h3
  simp only [Bool.and_eq_true, decide_eq_true_eq] at h4
  exact ⟨payloadIs_ok h1, hv, h4.1, h4.2, rfl⟩

theorem initStatesEffect_ok {s u : State} {out : List Byte} (h : initStatesEffect s = .ok (u, out)) :
    s.inp.length = 0 ∧ u = { s with slots := fillSlots (freshChannelState s.params) } ∧ out = [] := by
  simp only [initStatesEffect, except_bind_ok, except_pure, Except.ok.injEq, Prod.mk.injEq] at h
  obtain ⟨_, h1, rfl, rfl⟩ := h
  exact ⟨payloadIs_ok h1, rfl, rfl⟩

theorem writeStateEffect_ok {stream chan : Nat} {pred : Sample} {s u : State} {out : List Byte}
    (h : writeStateEffect stream chan pred s = .ok (u, out)) :
    ∃ id : SlotId, stream = id.stream.val ∧ chan = id.chan.val ∧ s.inp.length = 1 ∧ memRead s.inp 0 1 ≤ 88 ∧
      u = { s with slots := writeSlot s.slots id ⟨pred.signExtend 32, BitVec.ofNat 16 (memRead s.inp 0 1)⟩ } ∧ out = [] := by
  simp only [writeStateEffect, except_bind_ok, except_pure, Except.ok.injEq, Prod.mk.injEq] at h
  obtain ⟨_, h1, id, h2, _, h3, rfl, rfl⟩ := h
  obtain ⟨rfl, rfl⟩ := slotOperand_ok h2
  exact ⟨id, rfl, rfl, payloadIs_ok h1, by simpa using require_ok.mp h3, rfl, rfl⟩

theorem readStateEffect_ok {stream chan : Nat} {s u : State} {out : List Byte}
    (h : readStateEffect stream chan s = .ok (u, out)) :
    ∃ id : SlotId, stream = id.stream.val ∧ chan = id.chan.val ∧ s.inp.length = 0 ∧ u = s ∧
      out = headerEncode (readSlot s.slots id) := by
  simp only [readStateEffect, except_bind_ok, except_pure, Except.ok.injEq, Prod.mk.injEq] at h
  obtain ⟨_, h1, id, h2, rfl, rfl⟩ := h
  obtain ⟨rfl, rfl⟩ := slotOperand_ok h2
  exact ⟨id, rfl, rfl, payloadIs_ok h1, rfl, rfl⟩

theorem expandEffect_ok {stream chan : Nat} {n : Nibble} {s u : State} {out : List Byte}
    (h : expandEffect stream chan n s = .ok (u, out)) :
    ∃ id : SlotId, stream = id.stream.val ∧ chan = id.chan.val ∧ s.inp.length = 0 ∧
      u = { s with slots := writeSlot s.slots id (expandNibble (readSlot s.slots id) n).1 } ∧
      out = bytes16 (expandNibble (readSlot s.slots id) n).2 := by
  simp only [expandEffect, except_bind_ok, except_pure, Except.ok.injEq, Prod.mk.injEq] at h
  obtain ⟨_, h1, id, h2, rfl, rfl⟩ := h
  obtain ⟨rfl, rfl⟩ := slotOperand_ok h2
  exact ⟨id, rfl, rfl, payloadIs_ok h1, rfl, rfl⟩

theorem compressEffect_ok {stream chan : Nat} {x : Sample} {s u : State} {out : List Byte}
    (h : compressEffect stream chan x s = .ok (u, out)) :
    ∃ id : SlotId, stream = id.stream.val ∧ chan = id.chan.val ∧ s.inp.length = 0 ∧
      u = { s with slots := writeSlot s.slots id (compressSample (readSlot s.slots id) x).1 } ∧
      out = [(compressSample (readSlot s.slots id) x).2.setWidth 8] := by
  simp only [compressEffect, except_bind_ok, except_pure, Except.ok.injEq, Prod.mk.injEq] at h
  obtain ⟨_, h1, id, h2, rfl, rfl⟩ := h
  obtain ⟨rfl, rfl⟩ := slotOperand_ok h2
  exact ⟨id, rfl, rfl, payloadIs_ok h1, rfl, rfl⟩

theorem decodeChunkEffect_ok {s u : State} {out : List Byte} (h : decodeChunkEffect s = .ok (u, out)) :
    ∃ samples, s.cfg.valid = true ∧ s.inp.length = chunkSize s.cfg ∧
      decodeChunk s.params.stepIndexPolicy (geometry s.cfg) s.inp = .ok samples ∧ u = s ∧ out = bytesOf samples := by
  simp only [decodeChunkEffect, except_bind_ok, except_pure, Except.ok.injEq, Prod.mk.injEq] at h
  obtain ⟨g, h1, _, h2, samples, h3, rfl, rfl⟩ := h
  obtain ⟨hv, rfl⟩ := configured_ok h1
  exact ⟨samples, hv, by simpa [geometry] using require_ok.mp h2, h3, rfl, rfl⟩

theorem encodeChunkEffect_ok {stream chan : Nat} {s u : State} {out : List Byte}
    (h : encodeChunkEffect stream chan s = .ok (u, out)) :
    ∃ (id : SlotId) (st : ChannelState), stream = id.stream.val ∧ chan = id.chan.val ∧ s.cfg.valid = true ∧
      s.inp.length = 2 * chunkSamples s.cfg ∧
      encodeChunk (geometry s.cfg) (readSlot s.slots id) (samplesOf s.inp) = .ok (st, out) ∧
      u = { s with slots := writeSlot s.slots id st } := by
  simp only [encodeChunkEffect, except_bind_ok, except_pure] at h
  obtain ⟨id, h1, g, h2, _, h3, ⟨st, B⟩, h4, h5⟩ := h
  obtain ⟨rfl, rfl⟩ := slotOperand_ok h1
  obtain ⟨hv, rfl⟩ := configured_ok h2
  simp only [Except.ok.injEq, Prod.mk.injEq] at h5
  obtain ⟨rfl, rfl⟩ := h5
  exact ⟨id, st, rfl, rfl, hv, by simpa [geometry] using require_ok.mp h3, h4, rfl⟩

theorem decodeContainerEffect_ok {s u : State} {out : List Byte} (h : decodeContainerEffect s = .ok (u, out)) :
    ∃ pcms, s.cfg.valid = true ∧ decodeContainer s.params (geometry s.cfg) s.inp = .ok pcms ∧ u = s ∧
      out = pcmRecords pcms := by
  simp only [decodeContainerEffect, except_bind_ok, except_pure, Except.ok.injEq, Prod.mk.injEq] at h
  obtain ⟨g, h1, pcms, h2, rfl, rfl⟩ := h
  obtain ⟨hv, rfl⟩ := configured_ok h1
  exact ⟨pcms, hv, h2, rfl, rfl⟩

theorem encodeContainerEffect_ok {s u : State} {out : List Byte} (h : encodeContainerEffect s = .ok (u, out)) :
    ∃ (Ps : List (List Byte)) (f : SlotFile), s.cfg.valid = true ∧ parseRecords (streamCount s.cfg) s.inp = .ok Ps ∧
      encodeContainer s.params (geometry s.cfg) s.slots Ps = .ok (f, out) ∧ u = { s with slots := f } := by
  simp only [encodeContainerEffect, except_bind_ok, except_pure] at h
  obtain ⟨g, h1, Ps, h2, ⟨f, C⟩, h3, h4⟩ := h
  obtain ⟨hv, rfl⟩ := configured_ok h1
  simp only [Except.ok.injEq, Prod.mk.injEq] at h4
  obtain ⟨rfl, rfl⟩ := h4
  exact ⟨Ps, f, hv, h2, h3, rfl⟩

/-- No command's rule writes anything but CFG and the slot file. -/
theorem effect_frame {i : Instr} {s u : State} {out : List Byte} (h : effect i s = .ok (u, out)) :
    u = { s with cfg := u.cfg, slots := u.slots } := by
  cases i with
  | configure _ _ _ => obtain ⟨-, -, -, rfl, -⟩ := configureEffect_ok h; rfl
  | geometry => obtain ⟨-, -, rfl, -⟩ := geometryEffect_ok h; rfl
  | locate _ _ => obtain ⟨-, -, -, -, rfl⟩ := locateEffect_ok h; rfl
  | initStates => obtain ⟨-, rfl, -⟩ := initStatesEffect_ok h; rfl
  | writeState _ _ _ => obtain ⟨_, -, -, -, -, rfl, -⟩ := writeStateEffect_ok h; rfl
  | readState _ _ => obtain ⟨_, -, -, -, rfl, -⟩ := readStateEffect_ok h; rfl
  | expand _ _ _ => obtain ⟨_, -, -, -, rfl, -⟩ := expandEffect_ok h; rfl
  | compress _ _ _ => obtain ⟨_, -, -, -, rfl, -⟩ := compressEffect_ok h; rfl
  | decodeChunk => obtain ⟨_, -, -, -, rfl, -⟩ := decodeChunkEffect_ok h; rfl
  | encodeChunk _ _ => obtain ⟨_, _, -, -, -, -, -, rfl⟩ := encodeChunkEffect_ok h; rfl
  | decodeContainer => obtain ⟨_, -, -, rfl, -⟩ := decodeContainerEffect_ok h; rfl
  | encodeContainer => obtain ⟨_, _, -, -, -, rfl⟩ := encodeContainerEffect_ok h; rfl

/-- What a successful ENCODE_CONTAINER has done: the checks passed, and the walk ran from the fresh slots. -/
theorem encodeContainer_ok {p : Params} {g : Geometry} {f f' : SlotFile} {Ps : List (List Byte)} {C : List Byte}
    (h : encodeContainer p g f Ps = .ok (f', C)) :
    (∀ P ∈ Ps, P.length % (2 * g.channelCount) = 0) ∧
    ∃ Y, tryMap (paddedChannels p.padPolicy g (blocksPerStream g Ps * g.blockSamples)) Ps = .ok Y ∧
      (f', C) = emitOver (encodeTurn g Y) (writeUsedSlots f g.streamCount g.channelCount (freshChannelState p))
        (chunkWalk g (blocksPerStream g Ps * g.streamCount)) := by
  unfold encodeContainer at h
  split at h
  · cases h
  · rename_i hmul
    split at h
    · cases h
    · rename_i Y hY
      refine ⟨fun P hP => ?_, Y, hY, (Except.ok.inj h).symm⟩
      by_contra hne
      exact hmul (List.any_eq_true.mpr ⟨P, hP, by simpa using hne⟩)

/-- One turn of the encoder's walk writes only the slot of the owning stream and channel, and keeps a legal file legal. -/
theorem encodeTurn_cases (g : Geometry) (Y : List (List (List Sample))) (f : SlotFile) (i c k : Nat) :
    encodeTurn g Y f (i, c, k) = (f, []) ∨
    ∃ id : SlotId, blockOwner g i = id.stream.val ∧ c = id.chan.val ∧
      encodeTurn g Y f (i, c, k) =
        (writeSlot f id (encodeWindow (readSlot f id) (sampleWindow g Y i c k)).1,
         (encodeWindow (readSlot f id) (sampleWindow g Y i c k)).2) := by
  unfold encodeTurn
  split
  · exact .inl rfl
  · rename_i id hid
    obtain ⟨h1, h2⟩ := slotOperand_ok hid
    exact .inr ⟨id, h1, h2, rfl⟩

end Sys2Proof.Machine
end

