-- ==== Sys2Proof/Laws/PerInstr.lean ====
section
/-! SUPPORT. Statements about each instruction as syntax, one lemma per constructor. -/

namespace Sys2Proof.Laws.OpcodeField

/-- The OPC number of each instruction (30_encoding.md R60). -/
def opcode : Instr → BitVec 8
  | .configure _ _ _ => 0x01
  | .geometry => 0x02
  | .locate _ _ => 0x03
  | .initStates => 0x04
  | .writeState _ _ _ => 0x05
  | .readState _ _ => 0x06
  | .expand _ _ _ => 0x10
  | .compress _ _ _ => 0x11
  | .decodeChunk => 0x20
  | .encodeChunk _ _ => 0x21
  | .decodeContainer => 0x30
  | .encodeContainer => 0x31

/-- The encoder puts the instruction's own OPC in H[31:24], whatever its operands. -/
def Statement (i : Instr) : Prop := (encode i).extractLsb' 24 8 = opcode i

/-- The opcode byte of a word written as slot commands are. -/
theorem slotHeader_opcode (opc : Byte) (stream chan : Nat) (imm : BitVec 16) :
    (slotHeader opc stream chan imm).extractLsb' 24 8 = opc := by
  ext k hk
  simp only [slotHeader, BitVec.getElem_extractLsb', BitVec.getLsbD_append]
  have h1 : ¬(24 + k < 16) := by omega
  have h2 : ¬(24 + k - 16 < 4) := by omega
  have h3 : ¬(24 + k - 16 - 4 < 4) := by omega
  have h4 : 24 + k - 16 - 4 - 4 = k := by omega
  simp only [h1, h2, h3, h4, if_false]
  exact BitVec.getLsbD_eq_getElem hk

theorem configure (mono rate : Bool) (scount : Nat) : Statement (.configure mono rate scount) := by
  simp only [Statement, encode, opcode]
  generalize BitVec.ofNat 3 scount = n
  revert mono rate n
  decide
theorem geometry : Statement .geometry := by unfold Statement; decide
theorem locate (chan chunk : Nat) : Statement (.locate chan chunk) := slotHeader_opcode ..
theorem initStates : Statement .initStates := by unfold Statement; decide
theorem writeState (stream chan : Nat) (pred : Sample) : Statement (.writeState stream chan pred) := slotHeader_opcode ..
theorem readState (stream chan : Nat) : Statement (.readState stream chan) := slotHeader_opcode ..
theorem expand (stream chan : Nat) (nib : Nibble) : Statement (.expand stream chan nib) := slotHeader_opcode ..
theorem compress (stream chan : Nat) (sample : Sample) : Statement (.compress stream chan sample) := slotHeader_opcode ..
theorem decodeChunk : Statement .decodeChunk := by unfold Statement; decide
theorem encodeChunk (stream chan : Nat) : Statement (.encodeChunk stream chan) := slotHeader_opcode ..
theorem decodeContainer : Statement .decodeContainer := by unfold Statement; decide
theorem encodeContainer : Statement .encodeContainer := by unfold Statement; decide

end Sys2Proof.Laws.OpcodeField
end

