-- ==== Sys2Proof/Laws/Run.lean ====
section
/-! SUPPORT. Runs (70_reset_and_hazards.md R192): an ended run stays as it is, so a run shows one observation. -/

namespace Sys2Proof.Machine

@[simp] theorem runSteps_zero (s : State) : runSteps 0 s = some s := rfl

theorem runSteps_succ {s t : State} (h : step s = .next t) (n : Nat) : runSteps (n + 1) s = runSteps n t := by
  simp [runSteps, h]

/-- What a state with an observation is: the end of a run. -/
theorem observe_some {s : State} {o : Observation} (h : observe s = some o) :
    s.EndsRun ∧ o = { responses := s.host.seen, cfg := s.cfg, slots := s.slots, err := s.err } := by
  unfold observe at h
  split at h
  · rename_i he; exact ⟨he, (Option.some.inj h).symm⟩
  · cases h

/-- After the end of a run the block is idle and keeps its state (60_exceptions.md R173). -/
theorem step_of_endsRun {s : State} (h : s.EndsRun) : step s = .next s := by
  obtain ⟨h1, h2, h3⟩ := h
  simp [step, h3, parseFrame, hostTurn, h1]

theorem runSteps_of_endsRun {s : State} (h : s.EndsRun) (n : Nat) : runSteps n s = some s := by
  induction n with
  | zero => rfl
  | succ n ih => rw [runSteps_succ (step_of_endsRun h), ih]

/-- A run of m + n steps is one of m steps and then one of n. -/
theorem runSteps_add (m n : Nat) (s : State) : runSteps (m + n) s = (runSteps m s).bind (runSteps n) := by
  induction m generalizing s with
  | zero => simp
  | succ m ih =>
    rw [Nat.succ_add]
    simp only [runSteps]
    cases step s with
    | next t => exact ih t
    | fault f => rfl
    | refused r => rfl

/-- A run that has ended after m steps is in the same state after every longer number of steps. -/
theorem runSteps_ended {s t : State} {m : Nat} (h : runSteps m s = some t) (he : t.EndsRun) (n : Nat) :
    runSteps (m + n) s = some t := by
  rw [runSteps_add, h, Option.bind_some, runSteps_of_endsRun he]

/-- From one start state a run shows at most one observation. -/
theorem runShows_unique {s : State} {o o' : Observation} (h : s.RunShows o) (h' : s.RunShows o') : o = o' := by
  obtain ⟨-, m, t, ht, ho⟩ := h
  obtain ⟨-, n, t', ht', ho'⟩ := h'
  have e := runSteps_ended ht (observe_some ho).1 n
  rw [Nat.add_comm, runSteps_ended ht' (observe_some ho').1 m] at e
  obtain rfl := Option.some.inj e
  exact Option.some.inj (ho.symm.trans ho')

end Sys2Proof.Machine
end

