-- ==== Sys2Proof/Tests/Slice0.lean ====
section
/-! SUPPORT. The model's own tests. Every expected value is the spec's: the encodings of 30_encoding.md, the examples of the
command rules, and the vectors of 95_test_vectors.md (named by their ids S1, C1, F1, I1, T1, X1, P3 …). -/

namespace Sys2Proof.Tests

open Sys2Proof.Machine

/-! ### Helpers -/

/-- Reset, with every slot at (pred, idx). -/
def slotState (pred idx : Int) : State :=
  { State.reset with slots := fillSlots ⟨BitVec.ofInt 32 pred, BitVec.ofInt 16 idx⟩ }

/-- Reset, configured. -/
def confState (mono rate : Bool) (scount : Nat) : State :=
  { State.reset with cfg := { valid := true, mono := mono, rate := rate, scount := BitVec.ofNat 3 scount } }

/-- With a payload in IN. -/
def withInp (bytes : List Nat) (s : State) : State := { s with inp := bytes.map (BitVec.ofNat 8) }

/-- ST and OUT of the response a command leaves. -/
def answer : Host.Outcome State Fault Refusal → Option (Nat × List Nat)
  | .next s => s.tx.map fun r => (r.status.toNat, r.out.map BitVec.toNat)
  | .fault _ => none
  | .refused _ => none

/-- The value of a slot in the next state. -/
def slotAfter (id : SlotId) : Host.Outcome State Fault Refusal → Option (Int × Int)
  | .next s => some ((readSlot s.slots id).pred.toInt, (readSlot s.slots id).idx.toInt)
  | .fault _ => none
  | .refused _ => none

/-- CFG in the next state: valid, mono, rate, scount. -/
def cfgAfter : Host.Outcome State Fault Refusal → Option (Bool × Bool × Bool × Nat)
  | .next s => some (s.cfg.valid, s.cfg.mono, s.cfg.rate, s.cfg.scount.toNat)
  | .fault _ => none
  | .refused _ => none

/-! ### WellFormed refuses an operand that does not fit its field -/

theorem test_wf_configure_scount : ¬(Instr.configure false false 8).wf := by decide
theorem test_wf_locate_chan : ¬(Instr.locate 16 0).wf := by decide
theorem test_wf_locate_chunk : ¬(Instr.locate 0 65536).wf := by decide
theorem test_wf_writeState_stream : ¬(Instr.writeState 16 0 0).wf := by decide
theorem test_wf_writeState_chan : ¬(Instr.writeState 0 16 0).wf := by decide
theorem test_wf_readState : ¬(Instr.readState 16 0).wf ∧ ¬(Instr.readState 0 16).wf := by decide
theorem test_wf_expand : ¬(Instr.expand 16 0 0).wf ∧ ¬(Instr.expand 0 16 0).wf := by decide
theorem test_wf_compress : ¬(Instr.compress 16 0 0).wf ∧ ¬(Instr.compress 0 16 0).wf := by decide
theorem test_wf_encodeChunk : ¬(Instr.encodeChunk 16 0).wf ∧ ¬(Instr.encodeChunk 0 16).wf := by decide
theorem test_wf_illegal_values_are_encodable : (Instr.configure false false 7).wf ∧ (Instr.expand 15 15 0).wf := by decide

/-! ### Decode: a word of each row, written out from R61's pattern -/

theorem test_decode_configure : (decode 0b00000001_00000000_00000000_01100010).toOption = some (.configure false true 6) := by decide
theorem test_decode_configure_mono : (decode 0b00000001_00000000_00000000_00010001).toOption = some (.configure true false 1) := by decide
theorem test_decode_geometry : (decode 0b00000010_00000000_00000000_00000000).toOption = some .geometry := by decide
theorem test_decode_locate : (decode 0b00000011_00000001_00000001_00000010).toOption = some (.locate 1 258) := by decide
theorem test_decode_initStates : (decode 0b00000100_00000000_00000000_00000000).toOption = some .initStates := by decide
theorem test_decode_writeState : (decode 0b00000101_01010001_11111111_11111110).toOption = some (.writeState 5 1 0xFFFE) := by decide
theorem test_decode_readState : (decode 0b00000110_00110001_00000000_00000000).toOption = some (.readState 3 1) := by decide
theorem test_decode_expand : (decode 0b00010000_00010000_00000000_00001011).toOption = some (.expand 1 0 0b1011) := by decide
theorem test_decode_compress : (decode 0b00010001_00110001_00000000_01100100).toOption = some (.compress 3 1 100) := by decide
theorem test_decode_decodeChunk : (decode 0b00100000_00000000_00000000_00000000).toOption = some .decodeChunk := by decide
theorem test_decode_encodeChunk : (decode 0b00100001_00100001_00000000_00000000).toOption = some (.encodeChunk 2 1) := by decide
theorem test_decode_decodeContainer : (decode 0b00110000_00000000_00000000_00000000).toOption = some .decodeContainer := by decide
theorem test_decode_encodeContainer : (decode 0b00110001_00000000_00000000_00000000).toOption = some .encodeContainer := by decide

/-- X1, X2 and a reserved OPC between two rows. -/
theorem test_decode_reserved : (decode 0x00000000).toOption = none ∧ (decode 0xFF000000).toOption = none ∧
    (decode 0x07000000).toOption = none := by decide
/-- I4 and the EXPAND error of 95: a must-be-zero bit set. -/
theorem test_decode_mustBeZero : (decode 0x01000027).toOption = none ∧ (decode 0x01000093).toOption = none ∧
    (decode 0x10000017).toOption = none ∧ (decode 0x06000001).toOption = none := by decide
/-- I5, block 13, channel 1, chunk 2: R77 puts c at bit 16 (95 writes the byte 0x10 there, log entry 12). -/
theorem test_frame_locate : (encodeFrame 0x03010002 (leBytes 4 13)).map BitVec.toNat =
    [0x02, 0x00, 0x01, 0x03, 4, 0, 0, 0, 0x0D, 0, 0, 0] := by decide
/-- T1's frame: `FE FF 00 05 | 01 00 00 00 | 58`. -/
theorem test_frame_writeState : (encodeFrame (encode (.writeState 0 0 0xFFFE)) [0x58]).map BitVec.toNat =
    [0xFE, 0xFF, 0x00, 0x05, 1, 0, 0, 0, 0x58] := by decide
theorem test_parse_waits_for_the_payload : parseFrame [0, 0, 0, 5, 1, 0, 0, 0] = none := by decide
theorem test_table_word : decodeTableWord 32 0x11310064 = some (.compress 3 1 100) := by decide

/-! ### The commands -/

/-- I1 and its CFG. -/
theorem test_configure : cfgAfter (exec (.configure false false 6) State.reset) = some (true, false, false, 6) := by decide
/-- I3: SCOUNT = 7 raises ConfigError and leaves CFG as it was. -/
theorem test_configure_scount7 : answer (exec (.configure true true 7) (confState true true 1)) = some (0x2006, []) ∧
    cfgAfter (exec (.configure true true 7) (confState true true 1)) = some (true, true, true, 1) := by decide
/-- I2: the ten words, and P3's last line for the byte order. -/
theorem test_geometry : answer (exec .geometry (confState true true 1)) = some (0,
    [0x22, 0x56, 0, 0, 1, 0, 0, 0, 0, 2, 0, 0, 0, 0, 1, 0, 0x80, 0, 0, 0, 0xFC, 1, 0, 0, 0xF9, 3, 0, 0,
     0x80, 0xFC, 1, 0, 0, 0, 1, 0, 1, 0, 0, 0]) := by decide
/-- X3: stage 2 before stage 3. -/
theorem test_geometry_length : answer (exec .geometry (withInp [0, 0, 0, 0] State.reset)) = some (0x1005, []) := by decide
/-- I5. -/
theorem test_locate : answer (exec (.locate 1 2) (withInp [13, 0, 0, 0] (confState false false 6))) =
    some (0, [1, 0, 0, 0, 2, 0, 0, 0, 0x00, 0x08, 0x1B, 0, 0, 0, 0, 0]) := by decide
/-- I8. -/
theorem test_locate_mono : answer (exec (.locate 1 0) (withInp [0, 0, 0, 0] (confState true false 1))) = some (0x1005, []) := by decide
/-- T6: INITIAL_STEP_INDEX = 40. -/
theorem test_initStates : slotAfter ⟨5, 1⟩ (exec .initStates
    { slotState 7 7 with params := { Params.default with initialStepIndex := 40 } }) = some (0, 40) := by decide
/-- T1. -/
theorem test_writeState : slotAfter ⟨0, 0⟩ (exec (.writeState 0 0 0xFFFE) (withInp [0x58] State.reset)) = some (-2, 88) := by decide
/-- T3. -/
theorem test_writeState_89 : answer (exec (.writeState 0 0 0) (withInp [89] State.reset)) = some (0x0403, []) := by decide
/-- T2. -/
theorem test_readState : answer (exec (.readState 0 0) (slotState (-2) 88)) = some (0, [0xFE, 0xFF, 0x58, 0x00]) := by decide
/-- P1, step 8: slot s1.c0. -/
theorem test_readState_other : answer (exec (.readState 1 0)
    { State.reset with slots := writeSlot State.reset.slots ⟨1, 0⟩ ⟨BitVec.ofInt 32 (-22), 24⟩ }) =
    some (0, [0xEA, 0xFF, 0x18, 0x00]) := by decide
/-- S7 and S13: add and subtract. -/
theorem test_expand : slotAfter ⟨1, 0⟩ (exec (.expand 1 0 3) (slotState 100 10)) = some (115, 9) ∧
    answer (exec (.expand 1 0 11) (slotState 5 3)) = some (0, [0xFD, 0xFF]) := by decide
/-- S9: the negative clip, and idx held at 88. -/
theorem test_expand_clip : slotAfter ⟨0, 0⟩ (exec (.expand 0 0 15) (slotState (-32768) 88)) = some (-32768, 88) := by decide
/-- C12 and C13. -/
theorem test_compress : answer (exec (.compress 0 0 1200) (slotState 1000 40)) = some (0, [2]) ∧
    slotAfter ⟨0, 0⟩ (exec (.compress 0 0 800) (slotState 1000 40)) = some (790, 39) := by decide
/-- C8: the tie at delta = step. -/
theorem test_compress_tie : answer (exec (.compress 0 0 7) (slotState 0 0)) = some (0, [4]) := by decide

/-- F2's first bytes, at the frame codec's inner loop: nibbles 7, 7 from (0, 0), twice. -/
theorem test_expandBytes : (expandBytes ⟨0, 0⟩ [0x77, 0x77]).2.map BitVec.toInt = [11, 41, 104, 240] := by decide
/-- F6's first bytes: S[k] = 10k from (0, 0) begins 36 33. -/
theorem test_encodeWindow : (encodeWindow ⟨123, 0⟩ [0, 10, 20, 30, 40]).2 = [0, 0, 0, 0, 0x36, 0x33] := by decide
/-- F8 under Clamp: 0x59 is 88, 0x80 is 0; byte 3 is ignored (F7). -/
theorem test_header_clamp : (headerDecode .clamp [0x10, 0, 0x59, 0xAA]).toOption = some ⟨16, 88⟩ ∧
    (headerDecode .clamp [0x10, 0, 0x80, 0]).toOption = some ⟨16, 0⟩ := by decide
/-- F8 under Reject. -/
theorem test_header_reject : (headerDecode .reject [0x10, 0, 0x59, 0]).toOption = none ∧
    (headerDecode .reject [0x10, 0, 0xFF, 0]).toOption = none := by decide
/-- X4: stage 3 before stage 5. -/
theorem test_decodeChunk_unconfigured : answer (exec .decodeChunk (withInp [0, 0, 0] State.reset)) = some (0x2006, []) := by decide
/-- F1's first samples: all 100. -/
theorem test_decodeChunk : (answer (exec .decodeChunk
    { confState true true 1 with inp := [0x64, 0, 0, 0] ++ List.replicate 508 0 })).map
    (fun r => (r.1, r.2.take 6)) = some (0, [0x64, 0, 0x64, 0, 0x64, 0]) := by decide +kernel
/-- F16: slot range before configuration. -/
theorem test_encodeChunk_slot : answer (exec (.encodeChunk 0 2) State.reset) = some (0x1005, []) := by decide
/-- F5's first bytes: zero samples from slot (123, 0) give zero bytes; the old predictor is not in the header. -/
theorem test_encodeChunk : (answer (exec (.encodeChunk 0 0)
    { slotState 123 0 with cfg := (confState true true 1).cfg, inp := List.replicate 2034 0 })).map
    (fun r => (r.1, r.2.take 6)) = some (0, [0, 0, 0, 0, 0, 0]) := by decide +kernel
/-- I14: N = 0 gives S empty records. -/
theorem test_decodeContainer_empty : answer (exec .decodeContainer (confState true true 2)) =
    some (0, [0, 0, 0, 0, 0, 0, 0, 0, 0, 0, 0, 0, 0, 0, 0, 0]) := by decide
/-- I13: a tail. -/
theorem test_decodeContainer_tail : answer (exec .decodeContainer (withInp [0] (confState true true 2))) = some (0x0202, []) := by decide
/-- I23: all records empty; the slots used are made fresh, the others stay. -/
theorem test_encodeContainer_empty :
    slotAfter ⟨1, 0⟩ (exec .encodeContainer
      { withInp [0, 0, 0, 0, 0, 0, 0, 0] (confState true true 2) with slots := (slotState 5 5).slots }) = some (0, 0) ∧
    slotAfter ⟨1, 1⟩ (exec .encodeContainer
      { withInp [0, 0, 0, 0, 0, 0, 0, 0] (confState true true 2) with slots := (slotState 5 5).slots }) = some (5, 5) := by decide
/-- I22: one record where two are due. -/
theorem test_encodeContainer_framing : answer (exec .encodeContainer (withInp [0, 0, 0, 0] (confState true true 2))) =
    some (0x1005, []) := by decide
/-- I11's order in the small: channel 0 first in each sample frame. -/
theorem test_pcm_interleave : interleaveSamples 2 [[1, 2], [3, 4]] = [1, 3, 2, 4] := by decide
/-- I12: four blocks over three streams: stream 0 owns blocks 0 and 3. -/
theorem test_streamPcm : streamPcm (geometry (confState true true 3).cfg) [[1], [2], [3], [4]] 0 = [1, 4] := by decide

/-! ### Steps -/

/-- P3, step 5: a reserved opcode raises IllegalCommand (ERR 0x21 becomes 0x31), and its payload byte is consumed. -/
theorem test_step_reserved : answer (step { State.reset with err := 0x21, rx := [0, 0, 0, 7, 1, 0, 0, 0, 9] }) =
    some (0x3105, []) := by decide
/-- S1's frame on s1.c0: `07 00 10 10 | 00 00 00 00`. -/
theorem test_step_expand : answer (step { State.reset with rx := [0x07, 0, 0x10, 0x10, 0, 0, 0, 0] }) = some (0, [0x0B, 0]) := by decide
/-- The first instruction after reset: WRITE_STATE with no payload (T5). -/
theorem test_step_withFetchWord : answer (step (State.reset.withFetchWord 32 0x05000000)) = some (0x1005, []) := by decide
/-- A second frame before the first response is read has no meaning (70_reset_and_hazards.md R184). -/
theorem test_step_refuses_early_host : step { State.reset with tx := some ⟨0, []⟩, host := ⟨[.send [1]], []⟩ } =
    .refused .frameBeforeResponseRead := by rfl
/-- P5, step 4: reset discards a partly received frame and a pending response, and clears ERR. -/
theorem test_step_reset :
    step { State.reset with err := 0x10, rx := [1, 2], tx := some ⟨0, []⟩, host := ⟨[.reset], []⟩ } = .next State.reset := by rfl

/-- R192, with S1's frame on s1.c0: a run ends when the host has read the last response, and not before. -/
theorem test_run :
    (runSteps 3 { State.reset with host := ⟨[.send [0x07, 0, 0x10, 0x10, 0, 0, 0, 0], .readResponse], []⟩ }).map
      (fun t => (observe t).map fun o => (o.responses, readSlot o.slots ⟨1, 0⟩, o.err)) =
      some (some ([⟨0, [0x0B, 0]⟩], ⟨11, 8⟩, 0)) ∧
    (runSteps 2 { State.reset with host := ⟨[.send [0x07, 0, 0x10, 0x10, 0, 0, 0, 0], .readResponse], []⟩ }).map observe =
      some none := by decide
theorem test_run_starts_at_reset (todo : List HostMove) : { State.reset with host := ⟨todo, []⟩ }.StartsRun :=
  ⟨(by decide : State.reset.Inv), rfl, rfl, rfl⟩

/-! ### Witnesses: for each obligation with hypotheses, values that meet all of them together -/

/-- A configured state under other policies, with IN. -/
def polState (step : StepIndexPolicy) (tail : TailPolicy) (pad : PadPolicy) (mono rate : Bool) (scount : Nat)
    (inp : List Byte) : State :=
  { confState mono rate scount with params := ⟨step, tail, pad, 0⟩, inp := inp }

theorem witness_DecodeOfEncodeIsTheInstruction :
    (Instr.configure true true 7).wf ∧ Instr.geometry.wf ∧ (Instr.locate 15 65535).wf ∧ Instr.initStates.wf ∧
    (Instr.writeState 15 15 0xFFFF).wf ∧ (Instr.readState 0 0).wf ∧ (Instr.expand 15 0 15).wf ∧
    (Instr.compress 0 15 0x8000).wf ∧ Instr.decodeChunk.wf ∧ (Instr.encodeChunk 15 15).wf ∧
    Instr.decodeContainer.wf ∧ Instr.encodeContainer.wf := by decide

theorem witness_EncodeOfDecodeIsTheWord : decode 0x01000062 = .ok (.configure false true 6) := by rfl

theorem witness_NoTwoOpcodeRowsOverlap :
    rowConfigure ∈ opcodeRows ∧ rowConfigure.selects 0x01000073 = true := by decide

/-- The ends of each reserved range. -/
theorem witness_ReservedOpcodesAreRejected :
    (0x00FFFFFF#32 >>> 24 = 0) ∧ (0x07#32 ≤ 0x07000000#32 >>> 24 ∧ 0x07000000#32 >>> 24 ≤ 0x0F#32) ∧
    (0x07#32 ≤ 0x0FFFFFFF#32 >>> 24 ∧ 0x0FFFFFFF#32 >>> 24 ≤ 0x0F#32) ∧
    (0x12#32 ≤ 0x12000000#32 >>> 24 ∧ 0x1FFFFFFF#32 >>> 24 ≤ 0x1F#32) ∧
    (0x22#32 ≤ 0x22000000#32 >>> 24 ∧ 0x2FFFFFFF#32 >>> 24 ≤ 0x2F#32) ∧
    (0x32#32 ≤ 0x32000000#32 >>> 24) ∧ (0x32#32 ≤ 0xFFFFFFFF#32 >>> 24) := by decide

theorem witness_FrameIsCutOffWhole : ([] : List Byte).length < 2 ^ 32 ∧ ([1, 2, 3] : List Byte).length < 2 ^ 32 := by decide

/-- The frame of EXPAND on s1.c0 with nibble 7, and nothing after it. -/
def expandOnPort : State := { State.reset with rx := [0x07, 0, 0x10, 0x10, 0, 0, 0, 0] }

theorem witness_StepRunsTheDecodedInstruction :
    parseFrame expandOnPort.rx = some (0x10100007, [], []) ∧ decode 0x10100007 = .ok (.expand 1 0 7) ∧
    expandOnPort.tx = none := ⟨by decide, by rfl, rfl⟩

theorem witness_IllegalWordRaisesAndConsumesItsPayload :
    ([9] : List Byte).length < 2 ^ 32 ∧ (∀ r ∈ opcodeRows, 0x07000000#32 &&& r.mask ≠ r.pattern) ∧
    { State.reset with rx := [0, 0, 0, 7, 1, 0, 0, 0, 9, 5] }.rx = encodeFrame 0x07000000 [9] ++ [5] ∧
    { State.reset with rx := [0, 0, 0, 7, 1, 0, 0, 0, 9, 5] }.tx = none := by decide

theorem witness_ResponseFrameLayout : (⟨0x0101, [1, 2]⟩ : Response).out.length < 2 ^ 64 := by decide

/-- Every command that has hypotheses only about a next state has one on every state. -/
theorem witness_OnlyTheListedStateIsWritten :
    ∃ t, exec (.expand 1 0 3) (slotState 100 10) = .next t ∧ writesCfg (.expand 1 0 3) = false ∧
      mayWriteSlot (.expand 1 0 3) (slotState 100 10).cfg ⟨5, 1⟩ = false := ⟨_, rfl, by decide, by decide⟩

theorem witness_UnconfiguredGeometryCommandsRaise :
    State.reset.cfg.valid = false ∧ State.reset.inp = [] ∧
    (withInp [0, 0, 0, 0] State.reset).cfg.valid = false ∧ (withInp [0, 0, 0, 0] State.reset).inp.length = 4 := by decide

theorem witness_StateCommandsDoNotReadCfg :
    Instr.readState 5 1 ∈ [.initStates, .writeState 5 1 0, .readState 5 1, .expand 5 1 0, .compress 5 1 0] ∧
    ∃ t, exec (.readState 5 1) State.reset = .next t := ⟨by decide, _, rfl⟩

theorem witness_DecodersDoNotTouchTheSlotFile :
    Instr.decodeContainer ∈ [.decodeChunk, .decodeContainer] ∧
    ∃ t, exec .decodeContainer (confState true true 2) = .next t := ⟨by decide, _, rfl⟩

theorem witness_RepeatingAnIdempotentCommand :
    Instr.geometry ∈ [.geometry, .locate 0 0, .readState 0 0, .decodeChunk, .decodeContainer,
      .configure true true 0, .initStates, .writeState 0 0 0] ∧
    ∃ t, exec .geometry (confState true true 1) = .next t := ⟨by decide, _, rfl⟩

/-- N = 1 where 0 is due; N = 0 and N = 2 where 1 is due; N = 3 and N = 5 where 4 is due. -/
theorem witness_WrongFixedLengthRaises :
    (withInp [0] State.reset).inp ≠ [] ∧ State.reset.inp.length ≠ 1 ∧ (withInp [0, 0] State.reset).inp.length ≠ 1 ∧
    (withInp [0, 0, 0] State.reset).inp.length ≠ 4 ∧ (withInp [0, 0, 0, 0, 0] State.reset).inp.length ≠ 4 := by decide

/-- s = 6 and c = 2 are the first slots out of range; c = 1 in mono, c = 2 in stereo, and k = 128 or 64, the first chunks. -/
theorem witness_SlotOrChunkOutOfRangeRaises :
    (5 < 6 ∨ 1 < 0) ∧ (5 < 0 ∨ 1 < 2) ∧
    ((withInp [0, 0, 0, 0] (confState true true 1)).inp.length = 4 ∧ (withInp [0, 0, 0, 0] (confState true true 1)).cfg.valid = true ∧
      ((if (confState true true 1).cfg.mono then 1 else 2) ≤ 1 ∨ (if (confState true true 1).cfg.rate then 128 else 64) ≤ 0)) ∧
    ((if (confState false true 1).cfg.mono then 1 else 2) ≤ 2 ∨ (if (confState false true 1).cfg.rate then 128 else 64) ≤ 0) ∧
    ((if (confState true true 1).cfg.mono then 1 else 2) ≤ 0 ∨ (if (confState true true 1).cfg.rate then 128 else 64) ≤ 128) ∧
    ((if (confState true false 1).cfg.mono then 1 else 2) ≤ 0 ∨ (if (confState true false 1).cfg.rate then 128 else 64) ≤ 64) := by
  decide

/-- One byte short of a chunk, and one sample short of a window. -/
theorem witness_WrongChunkLengthRaises :
    (confState true true 1).cfg.valid = true ∧
    { confState true true 1 with inp := List.replicate 511 0 }.inp.length ≠ (if (confState true true 1).cfg.rate then 512 else 1024) ∧
    { confState true true 1 with inp := List.replicate 2032 0 }.inp.length ≠ (if (confState true true 1).cfg.rate then 2034 else 4082) := by
  refine ⟨rfl, ?_, ?_⟩ <;> rw [List.length_replicate] <;> decide

theorem witness_ConfigureRejectsStreamCounts :
    (confState true true 1).inp = [] ∧ (0 < 1 ∨ 6 < 0) ∧ (7 < 1 ∨ 6 < 7) := by decide

/-- A mono block at 22050 Hz, all zeros but byte 2 of its last chunk. -/
def lastChunkBad : List Byte := List.replicate 65026 0 ++ 0x59 :: List.replicate 509 0

/-- 0x59, the first value above 88, in a payload, in a chunk, and in the last chunk of a container of whole
blocks, under either tail policy. -/
theorem witness_StepIndexOutOfRangeRaises :
    0x58 < (0x59#8).toNat ∧ (withInp [0x59] State.reset).inp = [0x59#8] ∧
    (polState .reject .fault .fault true true 1 (0 :: 0 :: 0x59 :: List.replicate 509 0)).cfg.valid = true ∧
    (polState .reject .fault .fault true true 1 (0 :: 0 :: 0x59 :: List.replicate 509 0)).params.stepIndexPolicy = .reject ∧
    (polState .reject .fault .fault true true 1 (0 :: 0 :: 0x59 :: List.replicate 509 0)).inp =
      0 :: 0 :: 0x59#8 :: List.replicate 509 0 ∧
    (polState .reject .fault .fault true true 1 (0 :: 0 :: 0x59 :: List.replicate 509 0)).inp.length =
      (if (confState true true 1).cfg.rate then 512 else 1024) ∧
    (polState .reject .ignore .fault true true 1 lastChunkBad).params.tailPolicy = .ignore ∧
    (polState .reject .fault .fault true true 1 lastChunkBad).inp.length % blockBytes (confState true true 1).cfg = 0 ∧
    (0 < (polState .reject .fault .fault true true 1 lastChunkBad).inp.length / blockBytes (confState true true 1).cfg ∧
      0 < channelCount (confState true true 1).cfg ∧ 127 < chunksPerInterleave (confState true true 1).cfg ∧
      0x58 < memRead (polState .reject .fault .fault true true 1 lastChunkBad).inp
        (chunkOffset (geometry (confState true true 1).cfg) 0 0 127 + 2) 1) := by
  have hl : lastChunkBad.length = 65536 := by
    simp only [lastChunkBad, List.length_append, List.length_replicate, List.length_cons]
  refine ⟨by decide, by decide, rfl, rfl, rfl, ?_, rfl, ?_, ?_, by decide, by decide, ?_⟩
  · simp only [polState, List.length_cons, List.length_replicate]; decide
  · simp only [polState, hl]; decide
  · simp only [polState, hl]; decide
  · show 0x58 < leNat ((lastChunkBad.drop 65026).take 1)
    rw [lastChunkBad, List.drop_left' List.length_replicate]
    decide

/-- Clause by clause: one byte of tail; IN that is no record, and one that ends before its record does; an odd record; and a stream
of one sample under PAD_POLICY = Fault. -/
theorem witness_ContainerLengthsRaise :
    (polState .reject .fault .fault true true 1 [0]).cfg.valid = true ∧
    (polState .reject .fault .fault true true 1 [0]).params.tailPolicy = .fault ∧
    (polState .reject .fault .fault true true 1 [0]).inp.length %
      ((if (polState .reject .fault .fault true true 1 [0]).cfg.mono then 1 else 2) * 65536) ≠ 0 ∧
    (∀ Qs : List (List Byte), Qs.length = (polState .reject .fault .fault true true 1 [1, 0, 0, 0]).cfg.scount.toNat →
      (∀ Q ∈ Qs, Q.length < 2 ^ 32) →
      (polState .reject .fault .fault true true 1 [1, 0, 0, 0]).inp ≠ Qs.flatMap fun Q => leBytes 4 Q.length ++ Q) ∧
    ([[7]] : List (List Byte)).length = (polState .reject .fault .fault true true 1 [1, 0, 0, 0, 7]).cfg.scount.toNat ∧
    (∀ P ∈ ([[7]] : List (List Byte)), P.length < 2 ^ 32) ∧
    (polState .reject .fault .fault true true 1 [1, 0, 0, 0, 7]).inp =
      ([[7]] : List (List Byte)).flatMap (fun P => leBytes 4 P.length ++ P) ∧
    (∃ P ∈ ([[7]] : List (List Byte)), P.length % (2 * channelCount (confState true true 1).cfg) ≠ 0) ∧
    (polState .reject .fault .fault true true 1 [2, 0, 0, 0, 7, 7]).inp =
      ([[7, 7]] : List (List Byte)).flatMap (fun P => leBytes 4 P.length ++ P) ∧
    ((polState .reject .fault .fault true true 1 [2, 0, 0, 0, 7, 7]).params.padPolicy = .fault ∧
      ∃ P ∈ ([[7, 7]] : List (List Byte)), frameCount (geometry (confState true true 1).cfg) P ≠
        blocksPerStream (geometry (confState true true 1).cfg) [[7, 7]] * blockSamples (confState true true 1).cfg) := by
  refine ⟨by decide, by decide, by decide, ?_, by decide, by decide, by decide, by decide, by decide, by decide, by decide⟩
  intro Qs hl _ h
  have hl : Qs.length = 1 := hl
  obtain ⟨Q, rfl⟩ := List.length_eq_one_iff.mp hl
  have h' : ([1, 0, 0, 0] : List Byte) = leBytes 4 Q.length ++ Q := by simpa [polState] using h
  have hq : Q = [] := by
    have := congrArg List.length h'
    simp [leBytes] at this
    exact this
  subst hq
  exact absurd h' (by decide)

theorem witness_DiffmagIsTheSumOfItsTerms : 32767 ≤ 32767 := by decide

theorem witness_StepIndexMachine : (0#16).toNat ≤ 88 ∧ (88#16).toNat ≤ 88 := by decide

/-- Clause by clause: no delta; a delta of -1 against step 7 (and its quarter, 1, which is not below itself); a far sample. -/
theorem witness_NibbleChoice :
    (0 ≤ (0#16).toInt ∧ (0#16).toInt ≤ 88) ∧ (0 ≤ (88#16).toInt ∧ (88#16).toInt ≤ 88) ∧
    (5#16).toInt = (5#32).toInt ∧
    ((0#16).toInt < (1#32).toInt ∧ ((0#16).toInt - (1#32).toInt).natAbs < stepSize 4 / 4) ∧
    stepSize 0 + stepSize 0 / 2 + stepSize 0 / 4 ≤ ((11#16).toInt - (0#32).toInt).natAbs := by decide

theorem witness_ExpandReconstructsOneSample : (slotState 100 10).inp = [] := by decide

theorem witness_CompressQuantizesOneSample : (slotState 1000 40).inp = [] := by decide

theorem witness_InitStatesMakesEverySlotFresh : (slotState 7 7).inp = [] := by decide

theorem witness_WriteStateSetsOneSlot :
    (withInp [0] State.reset).inp = [0#8] ∧ (0#8).toNat ≤ 88 ∧ (withInp [88] State.reset).inp = [88#8] ∧ (88#8).toNat ≤ 88 := by
  decide

theorem witness_ReadStateAnswersTheHeader : (slotState (-2) 88).inp = [] := by decide

theorem witness_HeaderRoundTrip : (⟨BitVec.ofInt 32 (-32768), 88⟩ : ChannelState).Legal ∧ (⟨32767, 0⟩ : ChannelState).Legal := by
  decide

theorem witness_DecodeChunkExpandsEachNibble :
    (0x64 :: 0 :: 88 :: List.replicate 509 (0 : Byte)).length = chunkSize (confState true true 1).cfg ∧
    headerDecode .reject (0x64 :: 0 :: 88 :: List.replicate 509 0) = .ok ⟨0x64, 88⟩ := by
  refine ⟨?_, by rfl⟩
  simp only [List.length_cons, List.length_replicate]; decide

/-- Both ways to meet the header's condition: Clamp with 0x59, and Reject with 0x58. -/
theorem witness_DecodeChunkCompletes :
    (polState .clamp .fault .fault true true 1 (0 :: 0 :: 0x59 :: List.replicate 509 0)).cfg.valid = true ∧
    (polState .clamp .fault .fault true true 1 (0 :: 0 :: 0x59 :: List.replicate 509 0)).inp.length =
      (if (confState true true 1).cfg.rate then 512 else 1024) ∧
    (polState .clamp .fault .fault true true 1 (0 :: 0 :: 0x59 :: List.replicate 509 0)).params.stepIndexPolicy = .clamp ∧
    (polState .reject .fault .fault false false 6 (0 :: 0 :: 0x58 :: List.replicate 1021 0)).inp.length =
      (if (confState false false 6).cfg.rate then 512 else 1024) ∧
    memRead (polState .reject .fault .fault false false 6 (0 :: 0 :: 0x58 :: List.replicate 1021 0)).inp 2 1 ≤ 0x58 := by
  refine ⟨rfl, ?_, rfl, ?_, by decide⟩ <;> simp only [polState, List.length_cons, List.length_replicate] <;> decide

theorem witness_EncodeChunkCompletes :
    (polState .reject .fault .fault true true 1 (List.replicate 2034 0)).cfg.valid = true ∧
    (polState .reject .fault .fault true true 1 (List.replicate 2034 0)).inp.length =
      (if (confState true true 1).cfg.rate then 2034 else 4082) ∧
    (polState .reject .fault .fault true false 1 (List.replicate 4082 0)).inp.length =
      (if (confState true false 1).cfg.rate then 2034 else 4082) := by
  refine ⟨rfl, ?_, ?_⟩ <;> simp only [polState, List.length_replicate] <;> decide

theorem witness_EncodeChunkIgnoresTheOldPredictor :
    (polState .reject .fault .fault false true 6 (List.replicate 2034 0)).cfg.valid = true ∧
    (polState .reject .fault .fault false true 6 (List.replicate 2034 0)).inp.length =
      (if (confState false true 6).cfg.rate then 2034 else 4082) := by
  refine ⟨rfl, ?_⟩
  simp only [polState, List.length_replicate]; decide

theorem witness_EncodeThenDecodeChunk :
    (0 ≤ (88#16).toInt ∧ (88#16).toInt ≤ 88) ∧
    ((100 : Sample) :: List.replicate 1016 (0 : Sample)).length = chunkSamples (confState true true 1).cfg ∧
    ((100 : Sample) :: List.replicate 2040 (0 : Sample)).length = chunkSamples (confState true false 1).cfg := by
  refine ⟨by decide, ?_, ?_⟩ <;> simp only [List.length_cons, List.length_replicate] <;> decide

theorem witness_ConfigureSetsTheConfiguration : State.reset.inp = [] ∧ (1 ≤ 1 ∧ 1 ≤ 6) ∧ (1 ≤ 6 ∧ 6 ≤ 6) := by decide

theorem witness_GeometryReportsTheTable : (confState false false 6).inp = [] ∧ (confState false false 6).cfg.valid = true := by decide

theorem witness_LocateReportsTheChunk :
    (withInp [255, 255, 255, 255] (confState false true 6)).inp.length = 4 ∧
    (withInp [255, 255, 255, 255] (confState false true 6)).cfg.valid = true ∧
    (withInp [255, 255, 255, 255] (confState false true 6)).cfg.Legal ∧
    1 < (if (confState false true 6).cfg.mono then 1 else 2) ∧ 127 < (if (confState false true 6).cfg.rate then 128 else 64) := by
  decide

theorem witness_ChunksDoNotOverlap :
    (0 < 2 ∧ 1 < 2) ∧ (1 < channelCount (confState false true 1).cfg ∧ 0 < channelCount (confState false true 1).cfg) ∧
    (127 < chunksPerInterleave (confState false true 1).cfg ∧ 0 < chunksPerInterleave (confState false true 1).cfg) ∧
    ((0, 1, 127) : Nat × Nat × Nat) ≠ (1, 0, 0) := by decide

theorem witness_BlocksOwnedByAStream : 5 < streamCount (confState false true 6).cfg := by decide

theorem witness_PcmInterleavePlacesEverySample :
    (∀ X ∈ ([[1, 2], [3, 4]] : List (List Sample)), X.length = 2) ∧
    ([[1, 2], [3, 4]] : List (List Sample))[1]? = some [3, 4] ∧ ([3, 4] : List Sample)[1]? = some 4 := by decide

theorem witness_PcmDeinterleaveIsInverse :
    ([1, 0, 2, 0, 3, 0, 4, 0] : List Byte).length % (2 * channelCount (confState false true 1).cfg) = 0 ∧
    1 < channelCount (confState false true 1).cfg ∧
    1 < ([1, 0, 2, 0, 3, 0, 4, 0] : List Byte).length / (2 * channelCount (confState false true 1).cfg) := by decide

/-- A byte of a run of equal bytes. -/
theorem memRead_replicate_zero (n off : Nat) : memRead (List.replicate n 0) off 1 = 0 := by
  simp only [memRead, slice, List.drop_replicate, List.take_replicate]
  rcases Nat.le_one_iff_eq_zero_or_eq_one.mp (Nat.min_le_left 1 (n - off)) with h | h <;> rw [h] <;> decide

/-- Both ways to meet each policy's condition: one byte of tail under Ignore and Clamp; a whole block of zeros under the defaults. -/
theorem witness_DecodeContainerCompletes :
    ((polState .clamp .ignore .fault true true 6 [0]).cfg.valid = true ∧ (polState .clamp .ignore .fault true true 6 [0]).cfg.Legal ∧
      (polState .clamp .ignore .fault true true 6 [0]).params.tailPolicy = .ignore ∧
      (polState .clamp .ignore .fault true true 6 [0]).params.stepIndexPolicy = .clamp) ∧
    ((confState true true 1).cfg.Legal ∧
      (polState .reject .fault .fault true true 1 (List.replicate 65536 0)).inp.length % blockBytes (confState true true 1).cfg = 0 ∧
      ∀ i c k, i < (polState .reject .fault .fault true true 1 (List.replicate 65536 0)).inp.length / blockBytes (confState true true 1).cfg →
        c < channelCount (confState true true 1).cfg → k < chunksPerInterleave (confState true true 1).cfg →
        memRead (polState .reject .fault .fault true true 1 (List.replicate 65536 0)).inp
          (chunkOffset (geometry (confState true true 1).cfg) i c k + 2) 1 ≤ 0x58) := by
  refine ⟨by decide, by decide, ?_, ?_⟩
  · simp only [polState, List.length_replicate]; decide
  · intro i c k _ _ _
    simp only [polState, memRead_replicate_zero]
    decide

/-- A loop each of whose turns succeeds succeeds. -/
theorem tryMap_total {α β : Type} {f : α → Except ErrKind β} {as : List α} (h : ∀ a ∈ as, ∃ b, f a = .ok b) :
    ∃ bs, tryMap f as = .ok bs := by
  induction as with
  | nil => exact ⟨[], rfl⟩
  | cons a as ih =>
    obtain ⟨b, hb⟩ := h a (by simp)
    obtain ⟨bs, hbs⟩ := ih fun a' ha => h a' (by simp [ha])
    exact ⟨b :: bs, (tryMap_cons f a as).mpr ⟨b, bs, hb, hbs, rfl⟩⟩

/-- A mono block at 22050 Hz decodes under Clamp, whatever it holds. -/
theorem decodeBlock_one_block (C : List Byte) (hC : C.length = 65536) :
    ∃ b, decodeBlock .clamp (geometry (confState true true 1).cfg) C 0 = .ok b := by
  have chunk : ∀ k, k < 128 → ∃ xs, decodeChunk .clamp (geometry (confState true true 1).cfg)
      (containerChunk (geometry (confState true true 1).cfg) C 0 0 k) = .ok xs := by
    intro k hk
    have hl : (containerChunk (geometry (confState true true 1).cfg) C 0 0 k).length = 512 := by
      show (slice C (0 * 65536 + 0 * 65536 + k * 512) 512).length = 512
      simp only [slice, List.length_take, List.length_drop, hC]
      omega
    have hn : ¬(containerChunk (geometry (confState true true 1).cfg) C 0 0 k).length ≠
        (geometry (confState true true 1).cfg).chunkSize := by
      rw [hl]; decide
    exact ⟨_, by rw [decodeChunk, if_neg hn]; rfl⟩
  have segment : ∀ c, c = 0 → ∃ xs, decodeSegment .clamp (geometry (confState true true 1).cfg) C 0 c = .ok xs := by
    rintro c rfl
    obtain ⟨bs, hbs⟩ := tryMap_total (as := List.range (geometry (confState true true 1).cfg).chunksPerInterleave)
      fun k hk => chunk k (List.mem_range.mp hk)
    exact ⟨_, by rw [decodeSegment, hbs]⟩
  obtain ⟨bs, hbs⟩ := tryMap_total (as := List.range (geometry (confState true true 1).cfg).channelCount)
    fun c hc => segment c (Nat.lt_one_iff.mp (List.mem_range.mp hc))
  exact ⟨_, by rw [decodeBlock, hbs]⟩

/-- A container of that one block decodes, when neither policy raises. -/
theorem decodeContainer_one_block (C : List Byte) (hC : C.length = 65536) :
    ∃ pcm, decodeContainer ⟨.clamp, .ignore, .fault, 0⟩ (geometry (confState true true 1).cfg) C = .ok [pcm] := by
  obtain ⟨bs, hbs⟩ := tryMap_total (as := List.range (C.length / (geometry (confState true true 1).cfg).blockBytes))
    (f := decodeBlock .clamp (geometry (confState true true 1).cfg) C) fun i hi => by
      have h := List.mem_range.mp hi
      rw [hC] at h
      obtain rfl : i = 0 := Nat.lt_one_iff.mp h
      exact decodeBlock_one_block C hC
  refine ⟨streamPcm (geometry (confState true true 1).cfg) bs 0, ?_⟩
  rw [decodeContainer, if_neg (fun h => by cases h.2), hbs]
  rfl

theorem witness_StreamsHoldTheirOwnBlocks :
    (confState true true 1).cfg.valid = true ∧ (confState true true 1).cfg.Legal ∧
    (∃ pcms pcm, decodeContainer ⟨.clamp, .ignore, .fault, 0⟩ (geometry (confState true true 1).cfg) (List.replicate 65536 0) =
      .ok pcms ∧ pcms[0]? = some pcm) ∧
    0 * streamCount (confState true true 1).cfg + 0 <
      (List.replicate 65536 (0 : Byte)).length / blockBytes (confState true true 1).cfg ∧
    (∃ b, decodeBlock .clamp (geometry (confState true true 1).cfg) (List.replicate 65536 0) 0 = .ok b) ∧
    0 < channelCount (confState true true 1).cfg ∧ 127 < chunksPerInterleave (confState true true 1).cfg := by
  obtain ⟨pcm, h⟩ := decodeContainer_one_block (List.replicate 65536 0) List.length_replicate
  refine ⟨rfl, by decide, ⟨[pcm], pcm, h, rfl⟩, ?_, decodeBlock_one_block _ List.length_replicate, by decide, by decide⟩
  rw [List.length_replicate]; decide

/-- Both ways to meet PAD_POLICY's condition: a stream of one sample under PadLast, and one of exactly one block under Fault; and the
one (stream, channel) of the first, with its one block's first and last chunk. -/
theorem witness_EncodeContainerCompletes :
    ((confState true true 1).cfg.valid = true ∧ (confState true true 1).cfg.Legal ∧
      ([[7, 7]] : List (List Byte)).length = (confState true true 1).cfg.scount.toNat ∧
      (polState .reject .fault .padLast true true 1 [2, 0, 0, 0, 7, 7]).inp =
        ([[7, 7]] : List (List Byte)).flatMap (fun P => leBytes 4 P.length ++ P) ∧
      (∀ P ∈ ([[7, 7]] : List (List Byte)), P.length < 2 ^ 32 ∧ P.length % (2 * channelCount (confState true true 1).cfg) = 0) ∧
      (polState .reject .fault .padLast true true 1 [2, 0, 0, 0, 7, 7]).params.padPolicy ≠ .fault ∧
      ([[7, 7]] : List (List Byte))[(⟨0, 0⟩ : SlotId).stream.val]? = some [7, 7] ∧
      (⟨0, 0⟩ : SlotId).chan.val < channelCount (confState true true 1).cfg ∧
      0 < blocksPerStream (geometry (confState true true 1).cfg) [[7, 7]] ∧
      127 < chunksPerInterleave (confState true true 1).cfg) ∧
    (∀ P ∈ [List.replicate 260352 (7 : Byte)], P.length < 2 ^ 32 ∧ P.length % (2 * channelCount (confState true true 1).cfg) = 0) ∧
    (∀ P ∈ [List.replicate 260352 (7 : Byte)], frameCount (geometry (confState true true 1).cfg) P =
      blocksPerStream (geometry (confState true true 1).cfg) [List.replicate 260352 7] * blockSamples (confState true true 1).cfg) := by
  refine ⟨by decide, ?_, ?_⟩
  · intro P hP
    rw [List.mem_singleton.mp hP, List.length_replicate]; decide
  · intro P hP
    rw [List.mem_singleton.mp hP]
    simp only [blocksPerStream, List.map_cons, List.map_nil, List.foldl_cons, List.foldl_nil, frameCount, List.length_replicate]
    decide

/-- One stream of one sample, padded to a block with silence or with its last sample: an encode that succeeds. -/
theorem encodeContainer_one_sample (policy : PadPolicy) (h : policy ≠ .fault) :
    ∃ r, encodeContainer ⟨.reject, .fault, policy, 0⟩ (geometry (confState true true 1).cfg) State.reset.slots [[7, 7]] = .ok r := by
  obtain ⟨Y, hY⟩ := tryMap_total (as := ([[7, 7]] : List (List Byte)))
    (f := paddedChannels policy (geometry (confState true true 1).cfg)
      (blocksPerStream (geometry (confState true true 1).cfg) [[7, 7]] * (geometry (confState true true 1).cfg).blockSamples))
    fun P _ => tryMap_total fun c _ => by
      unfold pad
      split
      · exact ⟨_, rfl⟩
      · cases policy with
        | fault => exact absurd rfl h
        | padSilence => exact ⟨_, rfl⟩
        | padLast => exact ⟨_, rfl⟩
  exact ⟨_, by rw [encodeContainer, if_neg (by decide), hY]⟩

/-- w = 0 lies in the stream, and the second chunk's w = 1017 past its end, under each padding policy. -/
theorem witness_EncodedChunksHoldTheirLeadingSample :
    (confState true true 1).cfg.valid = true ∧ (confState true true 1).cfg.Legal ∧
    ([[7, 7]] : List (List Byte)).length = streamCount (confState true true 1).cfg ∧
    (∃ f' C, encodeContainer ⟨.reject, .fault, .padSilence, 0⟩ (geometry (confState true true 1).cfg) State.reset.slots [[7, 7]] =
      .ok (f', C)) ∧
    (∃ f' C, encodeContainer ⟨.reject, .fault, .padLast, 0⟩ (geometry (confState true true 1).cfg) State.reset.slots [[7, 7]] =
      .ok (f', C)) ∧
    0 < blocksPerStream (geometry (confState true true 1).cfg) [[7, 7]] * streamCount (confState true true 1).cfg ∧
    0 < channelCount (confState true true 1).cfg ∧
    (0 < chunksPerInterleave (confState true true 1).cfg ∧ 1 < chunksPerInterleave (confState true true 1).cfg) ∧
    ([[7, 7]] : List (List Byte))[0 % streamCount (confState true true 1).cfg]? = some [7, 7] := by
  obtain ⟨⟨f1, C1⟩, h1⟩ := encodeContainer_one_sample .padSilence (by decide)
  obtain ⟨⟨f2, C2⟩, h2⟩ := encodeContainer_one_sample .padLast (by decide)
  exact ⟨rfl, by decide, by decide, ⟨f1, C1, h1⟩, ⟨f2, C2, h2⟩, by decide, by decide, by decide, by decide⟩

/-- Nothing has arrived, and all but the last byte of a frame with a payload. -/
theorem witness_IncompleteFrameWaits :
    ([9] : List Byte).length < 2 ^ 32 ∧ 0 < 8 + ([9] : List Byte).length ∧ 8 < 8 + ([9] : List Byte).length ∧
    State.reset.rx = (encodeFrame 0x05000000 [9]).take 0 ∧
    { State.reset with rx := [0, 0, 0, 5, 1, 0, 0, 0] }.rx = (encodeFrame 0x05000000 [9]).take 8 ∧
    { State.reset with rx := [0, 0, 0, 5, 1, 0, 0, 0] }.host.todo = [] := by decide

theorem witness_ResetMoveResetsTheBlock :
    parseFrame { State.reset with rx := [1, 2], err := 0x10, tx := some ⟨0, []⟩, host := ⟨[.reset], []⟩ }.rx = none ∧
    { State.reset with rx := [1, 2], err := 0x10, tx := some ⟨0, []⟩, host := ⟨[.reset], []⟩ }.host.todo = .reset :: [] := by
  decide

theorem witness_ReadingTakesTheResponse :
    parseFrame { State.reset with tx := some ⟨0, [7]⟩, host := ⟨[.readResponse], []⟩ }.rx = none ∧
    { State.reset with tx := some ⟨0, [7]⟩, host := ⟨[.readResponse], []⟩ }.host.todo = .readResponse :: [] ∧
    { State.reset with tx := some ⟨0, [7]⟩, host := ⟨[.readResponse], []⟩ }.tx = some ⟨0, [7]⟩ := by decide

/-- A step that runs a command, from a state that meets the invariant. -/
theorem witness_StepKeepsTheInvariant : expandOnPort.Inv ∧ ∃ t, step expandOnPort = .next t := ⟨by decide, _, rfl⟩

theorem witness_OnlyAnEarlyHostIsRefused :
    expandOnPort.PortInv ∧ { State.reset with tx := some ⟨0, []⟩, host := ⟨[.send [1]], []⟩ }.PortInv ∧
    (parseFrame { State.reset with rx := [0x07, 0, 0x10], host := ⟨[.send [0x10, 0, 0, 0, 0]], []⟩ }.rx = none ∧
      { State.reset with rx := [0x07, 0, 0x10], host := ⟨[.send [0x10, 0, 0, 0, 0]], []⟩ }.host.todo = .send [0x10, 0, 0, 0, 0] :: [] ∧
      { State.reset with rx := [0x07, 0, 0x10], host := ⟨[.send [0x10, 0, 0, 0, 0]], []⟩ }.tx = none ∧
      overlong ({ State.reset with rx := [0x07, 0, 0x10], host := ⟨[.send [0x10, 0, 0, 0, 0]], []⟩ }.rx ++ [0x10, 0, 0, 0, 0]) = false) := by
  decide

/-- A step that raises, and the host's reset. -/
theorem witness_ErrIsClearedOnlyByReset :
    (∃ t, step { State.reset with err := 0x21, rx := [0, 0, 0, 7, 1, 0, 0, 0, 9] } = .next t) ∧
    (∃ t, step { State.reset with err := 0x10, host := ⟨[.reset], []⟩ } = .next t) := ⟨⟨_, rfl⟩, ⟨_, rfl⟩⟩

end Sys2Proof.Tests
end

section
/-! PROOFS. The way of a complete frame through a step (30_encoding.md R55, R69; 70_reset_and_hazards.md R184), one equation per
stage: the port gives up the frame, the frame is accepted, the header word selects its command. -/

namespace Sys2Proof.Machine

/-- A step with a complete frame on the port runs that frame (R55). -/
theorem step_eq_runFrame {s : State} {h : Word} {payload rest : List Byte}
    (hframe : parseFrame s.rx = some (h, payload, rest)) : step s = runFrame h payload rest s := by
  simp only [step, hframe]

/-- With no response pending the block accepts the frame and runs its header word (R184). -/
theorem runFrame_eq_runHeader {s : State} (h : Word) (payload rest : List Byte) (htx : s.tx = none) :
    runFrame h payload rest s = runHeader h (acceptFrame payload rest s) := by
  simp [runFrame, htx]

/-- A header word that decodes runs its instruction (R69). -/
theorem runHeader_eq_exec {h : Word} {i : Instr} (hdec : decode h = .ok i) (s : State) : runHeader h s = exec i s := by
  simp only [runHeader, hdec]

/-- Settles O8: the frame is cut off the port, accepted and decoded, one equation for each stage. -/
theorem stepRunsTheDecodedInstruction : Obligations.StepRunsTheDecodedInstruction := by
  intro s h payload rest i hframe hdec htx
  calc step s = runFrame h payload rest s := step_eq_runFrame hframe
    _ = runHeader h (acceptFrame payload rest s) := runFrame_eq_runHeader h payload rest htx
    _ = exec i (acceptFrame payload rest s) := runHeader_eq_exec hdec _

end Sys2Proof.Machine
end

section
/-! PROOFS. 10_state.md, the slot file: whatever a command does to it is a sequence of writes, each to a slot that the access
summary R34 lists and each of a legal value if the slot was legal (R28). What all such writes keep, the command keeps. -/

namespace Sys2Proof.Machine

/-! ### Reading the slot file -/

/-- Two slot files that agree on every slot are the same. -/
theorem slotFile_ext {f g : SlotFile} (h : ∀ id, readSlot f id = readSlot g id) : f = g := by
  apply Vector.ext
  intro n hn
  obtain ⟨id, hid⟩ := index_surj ⟨n, hn⟩
  have hn' : id.index.val = n := congrArg Fin.val hid
  subst hn'
  exact h id

/-- Writing one value to a list of slots: a slot of the list holds it, any other keeps its own. -/
theorem readSlot_foldl_writeSlot (ids : List SlotId) (f : SlotFile) (v : ChannelState) (id : SlotId) :
    readSlot (ids.foldl (fun g j => writeSlot g j v) f) id = if id ∈ ids then v else readSlot f id := by
  induction ids generalizing f with
  | nil => simp
  | cons j ids ih =>
    rw [List.foldl_cons, ih]
    by_cases hj : j = id
    · subst hj; simp
    · simp [hj, Ne.symm hj]

/-- Making the slots s < S, c < cc one value leaves the others (R135). -/
theorem readSlot_writeUsedSlots (f : SlotFile) (S cc : Nat) (v : ChannelState) (id : SlotId) :
    readSlot (writeUsedSlots f S cc v) id = if id.stream.val < S ∧ id.chan.val < cc then v else readSlot f id := by
  simp [writeUsedSlots, readSlot_foldl_writeSlot, mem_allSlots]

/-- Six streams of two channels are all slots (R26). -/
theorem writeUsedSlots_all (f : SlotFile) (v : ChannelState) : writeUsedSlots f 6 2 v = fillSlots v :=
  slotFile_ext fun id => by
    rw [readSlot_writeUsedSlots, if_pos ⟨id.stream.isLt, id.chan.isLt⟩, readSlot_fillSlots]

/-! ### Sequences of slot writes -/

/-- `SlotWrites may f g`: `g` comes from `f` by writes to slots that `may` allows, each of which leaves a legal slot legal. -/
inductive SlotWrites (may : SlotId → Bool) (f : SlotFile) : SlotFile → Prop
  | none : SlotWrites may f f
  | write {g : SlotFile} {id : SlotId} {v : ChannelState} (hg : SlotWrites may f g) (hmay : may id = true)
      (hlegal : (readSlot g id).Legal → v.Legal) : SlotWrites may f (writeSlot g id v)

/-- One allowed write. -/
theorem SlotWrites.one {may : SlotId → Bool} {f : SlotFile} {id : SlotId} {v : ChannelState} (hmay : may id = true)
    (hlegal : (readSlot f id).Legal → v.Legal) : SlotWrites may f (writeSlot f id v) := .write .none hmay hlegal

/-- A slot that may not be written keeps its value. -/
theorem SlotWrites.readSlot_eq {may : SlotId → Bool} {f g : SlotFile} (h : SlotWrites may f g) {id : SlotId}
    (hid : may id = false) : readSlot g id = readSlot f id := by
  induction h with
  | none => rfl
  | write _ hmay _ ih =>
    rw [readSlot_writeSlot_other _ _ (by rintro rfl; simp [hid] at hmay), ih]

/-- Writes keep a legal slot file legal (R28). -/
theorem SlotWrites.legal {may : SlotId → Bool} {f g : SlotFile} (h : SlotWrites may f g)
    (hf : ∀ id, (readSlot f id).Legal) (id : SlotId) : (readSlot g id).Legal := by
  induction h generalizing id with
  | none => exact hf id
  | @write g j v _ _ hlegal ih =>
    by_cases hj : j = id
    · subst hj; simpa using hlegal (ih j)
    · rw [readSlot_writeSlot_other _ _ hj]; exact ih id

/-- Making the slots s < S, c < cc one legal value (R135) is such a sequence. -/
theorem writeUsedSlots_slotWrites {may : SlotId → Bool} {S cc : Nat} {v : ChannelState} (hv : v.Legal)
    (hmay : ∀ id : SlotId, id.stream.val < S → id.chan.val < cc → may id = true) (f : SlotFile) :
    SlotWrites may f (writeUsedSlots f S cc v) := by
  refine List.foldlRecOn _ _ SlotWrites.none fun g hg id hid => hg.write ?_ fun _ => hv
  have hlt : id.stream.val < S ∧ id.chan.val < cc := by simpa using (List.mem_filter.mp hid).2
  exact hmay id hlt.1 hlt.2

/-! ### The walk of ENCODE_CONTAINER -/

theorem mem_chunkWalk {g : Geometry} {n i c k : Nat} :
    (i, c, k) ∈ chunkWalk g n ↔ i < n ∧ c < g.channelCount ∧ k < g.chunksPerInterleave := by
  simp [chunkWalk]

/-- A turn of the walk writes at most the slot of the block's owner and the chunk's channel (R133). -/
theorem encodeTurn_slotWrites {may : SlotId → Bool} {g : Geometry} {i c : Nat} (Y : List (List (List Sample))) (k : Nat)
    (hmay : ∀ id : SlotId, blockOwner g i = id.stream.val → c = id.chan.val → may id = true) {f f' : SlotFile}
    (hf : SlotWrites may f f') : SlotWrites may f (encodeTurn g Y f' (i, c, k)).1 := by
  rcases encodeTurn_cases g Y f' i c k with h | ⟨id, hs, hc, h⟩
  · rw [h]; exact hf
  · rw [h]; exact hf.write (hmay id hs hc) (encodeWindow_legal _ _)

/-- ENCODE_CONTAINER writes only the slots s < S, c < cc (R34, R135). -/
theorem encodeContainer_slotWrites {may : SlotId → Bool} {p : Params} {g : Geometry} {f f' : SlotFile}
    {Ps : List (List Byte)} {C : List Byte} (h : encodeContainer p g f Ps = .ok (f', C))
    (hmay : ∀ id : SlotId, id.stream.val < g.streamCount → id.chan.val < g.channelCount → may id = true) :
    SlotWrites may f f' := by
  obtain ⟨-, Y, -, hwalk⟩ := encodeContainer_ok h
  have hfresh := writeUsedSlots_slotWrites (freshChannelState_legal p) hmay f
  rw [show f' = _ from congrArg Prod.fst hwalk]
  refine emitOver_keeps_mem _ (fun g' a ha hg' => ?_) hfresh
  obtain ⟨i, c, k⟩ := a
  obtain ⟨hi, hc, -⟩ := mem_chunkWalk.mp ha
  have howner : blockOwner g i < g.streamCount :=
    Nat.mod_lt _ (Nat.pos_of_mul_pos_left (Nat.zero_lt_of_lt hi))
  exact encodeTurn_slotWrites Y k (fun id hs hcc => hmay id (hs ▸ howner) (hcc ▸ hc)) hg'

/-! ### Every command -/

theorem encodeChunk_legal {g : Geometry} {st st' : ChannelState} {S : List Sample} {B : List Byte}
    (h : encodeChunk g st S = .ok (st', B)) (hst : st.Legal) : st'.Legal := by
  unfold encodeChunk at h
  split at h
  · cases h
  · obtain rfl : (encodeWindow st S).1 = st' := congrArg Prod.fst (Except.ok.inj h)
    exact encodeWindow_legal st S hst

/-- What WRITE_STATE stores is legal once its index check has passed (R151). -/
theorem writtenState_legal (pred : Sample) {n : Nat} (hn : n ≤ 88) :
    (⟨pred.signExtend 32, BitVec.ofNat 16 n⟩ : ChannelState).Legal := by
  have hidx : (BitVec.ofNat 16 n).toInt = n := by
    rw [BitVec.toInt_eq_toNat_bmod, BitVec.toNat_ofNat, Int.bmod_def]
    omega
  have hpred := sample_bounds pred
  simp only [ChannelState.Legal, toInt_signExtend, hidx]
  omega

/-- A command that succeeds does nothing to the slot file but write legal values to slots that R34 lists for it. -/
theorem effect_slotWrites {i : Instr} {s u : State} {out : List Byte} (h : effect i s = .ok (u, out)) :
    SlotWrites (mayWriteSlot i s.cfg) s.slots u.slots := by
  cases i with
  | configure _ _ _ => obtain ⟨-, -, -, rfl, -⟩ := configureEffect_ok h; exact .none
  | geometry => obtain ⟨-, -, rfl, -⟩ := geometryEffect_ok h; exact .none
  | locate _ _ => obtain ⟨-, -, -, -, rfl⟩ := locateEffect_ok h; exact .none
  | initStates =>
    obtain ⟨-, rfl, -⟩ := initStatesEffect_ok h
    rw [← writeUsedSlots_all s.slots]
    exact writeUsedSlots_slotWrites (freshChannelState_legal _) (fun _ _ _ => rfl) _
  | writeState _ _ pred =>
    obtain ⟨id, rfl, rfl, -, hidx, rfl, -⟩ := writeStateEffect_ok h
    exact .one (by simp [mayWriteSlot]) fun _ => writtenState_legal pred hidx
  | readState _ _ => obtain ⟨_, -, -, -, rfl, -⟩ := readStateEffect_ok h; exact .none
  | expand _ _ _ =>
    obtain ⟨id, rfl, rfl, -, rfl, -⟩ := expandEffect_ok h
    exact .one (by simp [mayWriteSlot]) fun _ => expandNibble_legal ..
  | compress _ _ _ =>
    obtain ⟨id, rfl, rfl, -, rfl, -⟩ := compressEffect_ok h
    exact .one (by simp [mayWriteSlot]) fun _ => compressSample_legal ..
  | decodeChunk => obtain ⟨_, -, -, -, rfl, -⟩ := decodeChunkEffect_ok h; exact .none
  | encodeChunk _ _ =>
    obtain ⟨id, st, rfl, rfl, -, -, hchunk, rfl⟩ := encodeChunkEffect_ok h
    exact .one (by simp [mayWriteSlot]) (encodeChunk_legal hchunk)
  | decodeContainer => obtain ⟨_, -, -, rfl, -⟩ := decodeContainerEffect_ok h; exact .none
  | encodeContainer =>
    obtain ⟨_, f, -, -, hf, rfl⟩ := encodeContainerEffect_ok h
    exact encodeContainer_slotWrites hf fun id hs hc => by simp_all [mayWriteSlot]

/-- Of the commands CONFIGURE alone writes CFG, and only legal values (R34, R138). -/
theorem effect_cfg {i : Instr} {s u : State} {out : List Byte} (h : effect i s = .ok (u, out)) :
    u.cfg = s.cfg ∨ (writesCfg i = true ∧ u.cfg.Legal) := by
  cases i with
  | configure _ _ n =>
    obtain ⟨-, h1, h6, rfl, -⟩ := configureEffect_ok h
    have hn : (BitVec.ofNat 3 n).toNat = n := by rw [BitVec.toNat_ofNat]; omega
    exact .inr ⟨rfl, fun _ => by simpa only [hn] using ⟨h1, h6⟩⟩
  | geometry => obtain ⟨-, -, rfl, -⟩ := geometryEffect_ok h; exact .inl rfl
  | locate _ _ => obtain ⟨-, -, -, -, rfl⟩ := locateEffect_ok h; exact .inl rfl
  | initStates => obtain ⟨-, rfl, -⟩ := initStatesEffect_ok h; exact .inl rfl
  | writeState _ _ _ => obtain ⟨_, -, -, -, -, rfl, -⟩ := writeStateEffect_ok h; exact .inl rfl
  | readState _ _ => obtain ⟨_, -, -, -, rfl, -⟩ := readStateEffect_ok h; exact .inl rfl
  | expand _ _ _ => obtain ⟨_, -, -, -, rfl, -⟩ := expandEffect_ok h; exact .inl rfl
  | compress _ _ _ => obtain ⟨_, -, -, -, rfl, -⟩ := compressEffect_ok h; exact .inl rfl
  | decodeChunk => obtain ⟨_, -, -, -, rfl, -⟩ := decodeChunkEffect_ok h; exact .inl rfl
  | encodeChunk _ _ => obtain ⟨_, _, -, -, -, -, -, rfl⟩ := encodeChunkEffect_ok h; exact .inl rfl
  | decodeContainer => obtain ⟨_, -, -, rfl, -⟩ := decodeContainerEffect_ok h; exact .inl rfl
  | encodeContainer => obtain ⟨_, _, -, -, -, rfl⟩ := encodeContainerEffect_ok h; exact .inl rfl

end Sys2Proof.Machine
end

section
/-! PROOFS. 10_state.md, what a command and a step leave of the state: from the slot writes above to what `exec` and `step` keep. -/

namespace Sys2Proof.Machine

/-! ### What `exec` leaves -/

/-- A command writes nothing but CFG, the slot file, ERR and the response, and it discards IN. -/
theorem exec_frame {i : Instr} {s t : State} (h : exec i s = .next t) :
    t = { s with cfg := t.cfg, slots := t.slots, err := t.err, inp := [], tx := t.tx } := by
  rcases exec_cases h with ⟨_, -, rfl⟩ | ⟨_, _, hu, rfl⟩
  · rfl
  · rw [effect_frame hu]; rfl

theorem exec_params {i : Instr} {s t : State} (h : exec i s = .next t) : t.params = s.params := by
  rw [exec_frame h]

theorem exec_host {i : Instr} {s t : State} (h : exec i s = .next t) : t.host = s.host := by
  rw [exec_frame h]

theorem exec_rx {i : Instr} {s t : State} (h : exec i s = .next t) : t.rx = s.rx := by
  rw [exec_frame h]

theorem exec_inp {i : Instr} {s t : State} (h : exec i s = .next t) : t.inp = [] := by
  rw [exec_frame h]

/-- ERR is as it was, or has gained the bit of one error (R30). -/
theorem exec_err {i : Instr} {s t : State} (h : exec i s = .next t) : t.err = s.err ∨ ∃ k, t.err = s.err ||| errBit k := by
  rcases exec_cases h with ⟨k, -, rfl⟩ | ⟨_, _, hu, rfl⟩
  · exact .inr ⟨k, rfl⟩
  · rw [effect_frame hu]; exact .inl rfl

theorem exec_cfg {i : Instr} {s t : State} (h : exec i s = .next t) :
    t.cfg = s.cfg ∨ (writesCfg i = true ∧ t.cfg.Legal) := by
  rcases exec_cases h with ⟨_, -, rfl⟩ | ⟨u, _, hu, rfl⟩
  · exact .inl rfl
  · exact effect_cfg (u := u) hu

theorem exec_slotWrites {i : Instr} {s t : State} (h : exec i s = .next t) :
    SlotWrites (mayWriteSlot i s.cfg) s.slots t.slots := by
  rcases exec_cases h with ⟨_, -, rfl⟩ | ⟨u, _, hu, rfl⟩
  · exact .none
  · exact effect_slotWrites (u := u) hu

/-- Settles O12: the frame of `exec` field by field, and for the slots the sequence of writes that R34 allows. -/
theorem onlyTheListedStateIsWritten : Obligations.OnlyTheListedStateIsWritten := by
  intro i s t h
  refine ⟨exec_params h, exec_host h, exec_rx h, fun hcfg => ?_, fun id hid => (exec_slotWrites h).readSlot_eq hid⟩
  rcases exec_cfg h with heq | ⟨hwrites, -⟩
  · exact heq
  · simp [hcfg] at hwrites

/-! ### The state invariant -/

/-- No error bit is one of ERR's reserved bits 6 and 7 (R30). -/
theorem or_errBit_lt {e : Byte} (he : e.toNat < 64) (k : ErrKind) : (e ||| errBit k).toNat < 64 := by
  have hk : (errBit k).toNat < 2 ^ 6 := by cases k <;> decide
  rw [BitVec.toNat_or]
  exact Nat.or_lt_two_pow he hk

/-- A command keeps the state invariant, whatever IN holds: it discards it (20_memory.md R40). -/
theorem exec_inv {i : Instr} {s t : State} (h : exec i s = .next t) (hslots : ∀ n : Fin 12, (s.slots[n.val]).Legal)
    (hcfg : s.cfg.Legal) (herr : s.err.toNat < 64) : t.Inv := by
  refine ⟨?_, ?_, ?_, exec_inp h⟩
  · exact (forall_slots_iff _ _).mpr ((exec_slotWrites h).legal ((forall_slots_iff _ _).mp hslots))
  · rcases exec_cfg h with heq | ⟨-, hlegal⟩
    · rwa [heq]
    · exact hlegal
  · rcases exec_err h with heq | ⟨k, heq⟩
    · rwa [heq]
    · rw [heq]; exact or_errBit_lt herr k

theorem afterReset_inv (p : Params) (h : HostAgent) : (State.afterReset p h).Inv := by
  refine ⟨(forall_slots_iff _ _).mpr fun id => ?_, by simp [Cfg.Legal], by simp, rfl⟩
  rw [afterReset_slots, readSlot_fillSlots]
  exact freshChannelState_legal p

theorem runFrame_inv {w : Word} {payload rest : List Byte} {s t : State} (h : runFrame w payload rest s = .next t)
    (hs : s.Inv) : t.Inv := by
  obtain ⟨hslots, hcfg, herr, -⟩ := hs
  rcases (runFrame_cases h).2 with ⟨i, -, hexec⟩ | ⟨_, -, rfl⟩
  · exact exec_inv hexec hslots hcfg herr
  · exact ⟨hslots, hcfg, or_errBit_lt herr _, rfl⟩

/-- Sending and reading move bytes and responses only; reset starts afresh. -/
theorem hostTurn_inv {s t : State} (h : hostTurn s = .next t) (hs : s.Inv) : t.Inv := by
  rcases hostTurn_cases h with rfl | ⟨_, _, -, -, rfl⟩ | ⟨_, _, -, -, rfl⟩ | ⟨_, -, rfl⟩
  · exact hs
  · exact hs
  · exact hs
  · exact afterReset_inv _ _

/-- Settles O57: a frame's command writes legal values only, and the host's moves write none of the invariant's fields but by reset. -/
theorem stepKeepsTheInvariant : Obligations.StepKeepsTheInvariant := by
  intro s t hs h
  rcases step_cases h with ⟨_, _, _, -, hrun⟩ | ⟨-, hturn⟩
  · exact runFrame_inv hrun hs
  · exact hostTurn_inv hturn hs

/-- Settles O58: the fresh slots are legal, CFG is not valid, ERR and the port are empty. -/
theorem resetMeetsTheInvariants : Obligations.ResetMeetsTheInvariants := by
  intro p h
  exact ⟨afterReset_inv p h, by simp, by rw [afterReset_rx]; decide⟩

/-! ### ERR and the parameters over a step -/

/-- A raise keeps every ERR bit that was set (R30). -/
theorem raised_keeps_err (k : ErrKind) {s : State} {b : Nat} (hb : s.err.getLsbD b = true) :
    (raised k s).err.getLsbD b = true := by
  simp [hb]

theorem exec_keeps_err {i : Instr} {s t : State} (h : exec i s = .next t) {b : Nat} (hb : s.err.getLsbD b = true) :
    t.err.getLsbD b = true := by
  rcases exec_err h with heq | ⟨k, heq⟩
  · rwa [heq]
  · rw [heq]; exact raised_keeps_err k hb

theorem runFrame_params {w : Word} {payload rest : List Byte} {s t : State}
    (h : runFrame w payload rest s = .next t) : t.params = s.params := by
  rcases (runFrame_cases h).2 with ⟨_, -, hexec⟩ | ⟨_, -, rfl⟩
  · rw [exec_params hexec, acceptFrame_params]
  · rfl

theorem runFrame_keeps_err {w : Word} {payload rest : List Byte} {s t : State}
    (h : runFrame w payload rest s = .next t) {b : Nat} (hb : s.err.getLsbD b = true) : t.err.getLsbD b = true := by
  rcases (runFrame_cases h).2 with ⟨_, -, hexec⟩ | ⟨_, -, rfl⟩
  · exact exec_keeps_err hexec hb
  · exact raised_keeps_err _ hb

/-- Settles O60: a command only adds to ERR, sending and reading leave it, and the one move that is left is reset. -/
theorem errIsClearedOnlyByReset : Obligations.ErrIsClearedOnlyByReset := by
  intro s t h
  rcases step_cases h with ⟨_, _, _, -, hrun⟩ | ⟨hframe, hturn⟩
  · exact ⟨runFrame_params hrun, .inl fun _ hb => runFrame_keeps_err hrun hb⟩
  · rcases hostTurn_cases hturn with rfl | ⟨_, _, -, -, rfl⟩ | ⟨_, _, -, -, rfl⟩ | ⟨todo, htodo, rfl⟩
    · exact ⟨rfl, .inl fun _ hb => hb⟩
    · exact ⟨rfl, .inl fun _ hb => hb⟩
    · exact ⟨rfl, .inl fun _ hb => hb⟩
    · exact ⟨rfl, .inr ⟨hframe, by rw [htodo]; rfl⟩⟩

/-! ### The host's reset -/

theorem step_eq_hostTurn {s : State} (hframe : parseFrame s.rx = none) : step s = hostTurn s := by
  simp only [step, hframe]

theorem hostTurn_reset {s : State} {todo : List HostMove} (h : s.host.todo = .reset :: todo) :
    hostTurn s = .next (State.afterReset s.params { s.host with todo := todo }) := by
  simp only [hostTurn, h]
  rfl

theorem freshChannelState_idx_toNat (p : Params) : (freshChannelState p).idx.toNat = p.initialStepIndex.val := by
  have hlt := p.initialStepIndex.isLt
  simp only [freshChannelState, BitVec.toNat_ofNat]
  omega

/-- Settles O55: the step is the host's turn, its move the reset, and the reset state's fields are R33's. -/
theorem resetMoveResetsTheBlock : Obligations.ResetMoveResetsTheBlock := by
  intro s todo hframe htodo
  refine ⟨State.afterReset s.params { s.host with todo := todo }, ?_, rfl, rfl, rfl, rfl, rfl, rfl, rfl, fun id => ?_⟩
  · rw [step_eq_hostTurn hframe, hostTurn_reset htodo]
  · rw [afterReset_slots, readSlot_fillSlots]
    exact ⟨rfl, freshChannelState_idx_toNat s.params⟩

end Sys2Proof.Machine
end

section
/-! PROOFS. 10_state.md R22, R29, R31, R32: what a command does not read, what it raises without a configuration, and the tables. -/

namespace Sys2Proof.Machine

/-! ### Noninterference -/

/-- A command whose rule does not look at what `w` changes answers on `w s` what it answers on `s`, changed by `w`; `w` itself must
leave alone what the end of a command reads and writes. -/
theorem exec_noninterference {w : State → State} (hraised : ∀ k s, raised k (w s) = w (raised k s))
    (hsucceeded : ∀ out s, succeeded out (w s) = w (succeeded out s)) {i : Instr} {s t : State}
    (heffect : effect i (w s) = Prod.map w id <$> effect i s) (h : exec i s = .next t) : exec i (w s) = .next (w t) := by
  rcases exec_cases h with ⟨k, hk, rfl⟩ | ⟨u, out, hu, rfl⟩
  · rw [exec_eq_complete, heffect, hk, ← hraised]; rfl
  · rw [exec_eq_complete, heffect, hu, ← hsucceeded]; rfl

/-- With another slot file. -/
def withSlots (f : SlotFile) (s : State) : State := { s with slots := f }

/-- With another configuration. -/
def withCfg (c : Cfg) (s : State) : State := { s with cfg := c }

/-- Neither decoder's rule mentions the slot file. -/
theorem effect_withSlots {i : Instr} (hi : i ∈ [.decodeChunk, .decodeContainer]) (f : SlotFile) (s : State) :
    effect i (withSlots f s) = Prod.map (withSlots f) id <$> effect i s := by
  simp only [List.mem_cons, List.not_mem_nil, or_false] at hi
  rcases hi with rfl | rfl
  all_goals
    simp only [effect, decodeChunkEffect, decodeContainerEffect, map_bind, map_pure]
    rfl

/-- R34 lists no slot for a decoder. -/
theorem mayWriteSlot_decoder {i : Instr} (hi : i ∈ [.decodeChunk, .decodeContainer]) (c : Cfg) (id : SlotId) :
    mayWriteSlot i c id = false := by
  simp only [List.mem_cons, List.not_mem_nil, or_false] at hi
  rcases hi with rfl | rfl <;> rfl

/-- Settles O15: neither rule writes the slot file, and each gives the same with another one. -/
theorem decodersDoNotTouchTheSlotFile : Obligations.DecodersDoNotTouchTheSlotFile := by
  intro s t f i hi h
  exact ⟨slotFile_ext fun id => (exec_slotWrites h).readSlot_eq (mayWriteSlot_decoder hi s.cfg id),
    exec_noninterference (w := withSlots f) (fun _ _ => rfl) (fun _ _ => rfl) (effect_withSlots hi f s) h⟩

/-- None of the five rules mentions CFG: what is left after moving the change to each rule's end is the rule itself. -/
theorem effect_withCfg {i : Instr} {stream chan : Nat} {pred x : Sample} {n : Nibble}
    (hi : i ∈ [.initStates, .writeState stream chan pred, .readState stream chan, .expand stream chan n, .compress stream chan x])
    (c : Cfg) (s : State) : effect i (withCfg c s) = Prod.map (withCfg c) id <$> effect i s := by
  simp only [List.mem_cons, List.not_mem_nil, or_false] at hi
  rcases hi with rfl | rfl | rfl | rfl | rfl
  all_goals
    simp only [effect, initStatesEffect, writeStateEffect, readStateEffect, expandEffect, compressEffect, map_bind, map_pure]
    rfl

/-- Settles O14: each of the five rules gives the same with another CFG. -/
theorem stateCommandsDoNotReadCfg : Obligations.StateCommandsDoNotReadCfg := by
  intro s t c i stream chan pred x n hi h
  exact exec_noninterference (w := withCfg c) (fun _ _ => rfl) (fun _ _ => rfl) (effect_withCfg hi c s) h

/-! ### Without a configuration -/

theorem configured_invalid {s : State} (h : s.cfg.valid = false) : configured s = .error .configError := by
  simp [configured, h]

theorem payloadIs_of_length {n : Nat} {s : State} (h : s.inp.length = n) : payloadIs n s = .ok () := by
  simp [payloadIs, h]

/-- A command whose rule is an error raises it. -/
theorem exec_eq_raised {i : Instr} {s : State} {k : ErrKind} (h : effect i s = .error k) :
    exec i s = .next (raised k s) := by
  rw [exec_eq_complete, h, complete_error]

/-- Settles O13: in each of the six rules the validity check comes next after the stage-2 checks that have passed. -/
theorem unconfiguredGeometryCommandsRaise : Obligations.UnconfiguredGeometryCommandsRaise := by
  intro s id c k hvalid
  have hcfg := configured_invalid hvalid
  refine ⟨fun hinp => exec_eq_raised ?_, fun hinp => exec_eq_raised ?_, exec_eq_raised ?_, exec_eq_raised ?_,
    exec_eq_raised ?_, exec_eq_raised ?_⟩
  · simp [effect, geometryEffect, payloadIs_of_length (List.length_eq_zero_iff.mpr hinp), hcfg]
  · simp [effect, locateEffect, payloadIs_of_length hinp, hcfg]
  · simp [effect, decodeChunkEffect, hcfg]
  · simp [effect, encodeChunkEffect, hcfg]
  · simp [effect, decodeContainerEffect, hcfg]
  · simp [effect, encodeContainerEffect, hcfg]

/-! ### The tables -/

/-- Settles O24: the entries are numerals, so each clause is a finite check. -/
theorem constantTables : Obligations.ConstantTables := by
  refine ⟨rfl, ?_, rfl, rfl, ?_⟩
  · exact List.isChain_iff_pairwise.mp (by simp [stepTable])
  · decide

end Sys2Proof.Machine
end

section
/-! PROOFS. 20_memory.md R54, repeating a command: no rule reads the report of the command before it, and a rule that leaves what it
would leave again answers the same. -/

namespace Sys2Proof.Machine

/-! ### What the last command reported -/

/-- With another ERR and another pending response: all that the end of a command writes besides IN. -/
def withReport (e : Byte) (r : Option Response) (s : State) : State := { s with err := e, tx := r }

/-- No command's rule reads or writes ERR or the pending response. -/
theorem effect_withReport (i : Instr) (e : Byte) (r : Option Response) (s : State) :
    effect i (withReport e r s) = Prod.map (withReport e r) id <$> effect i s := by
  cases i
  all_goals
    simp only [effect, configureEffect, geometryEffect, locateEffect, initStatesEffect, writeStateEffect, readStateEffect,
      expandEffect, compressEffect, decodeChunkEffect, encodeChunkEffect, decodeContainerEffect, encodeContainerEffect,
      map_bind, map_pure]
    rfl

/-- A command whose rule succeeds ends with its new state and OUT. -/
theorem exec_eq_succeeded {i : Instr} {s u : State} {out : List Byte} (h : effect i s = .ok (u, out)) :
    exec i s = .next (succeeded out u) := by
  rw [exec_eq_complete, h, complete_ok]

/-! ### After a raise -/

/-- Raising an error again on the same payload changes nothing: its ERR bit is set already (R54). -/
theorem raised_raised (k : ErrKind) (s : State) : raised k { raised k s with inp := s.inp } = raised k s := by
  simp [raised, respond, BitVec.or_assoc]

/-- Any command that raises does so again on the same payload, and leaves the same state. -/
theorem exec_again_of_error {i : Instr} {s : State} {k : ErrKind} (h : effect i s = .error k) :
    exec i { raised k s with inp := s.inp } = .next (raised k s) := by
  have hagain : effect i { raised k s with inp := s.inp } = .error k := by
    have hreport := effect_withReport i (raised k s).err (raised k s).tx s
    rw [h] at hreport
    exact hreport
  rw [exec_eq_raised hagain, raised_raised]

/-! ### After a success -/

theorem effect_inp {i : Instr} {s u : State} {out : List Byte} (h : effect i s = .ok (u, out)) : u.inp = s.inp := by
  rw [effect_frame h]

/-- A command whose rule, on what it left, leaves that and answers OUT again does the same on the whole state after it. -/
theorem exec_again_of_ok {i : Instr} {s u : State} {out : List Byte} (h : effect i s = .ok (u, out))
    (hfix : effect i u = .ok (u, out)) : exec i { succeeded out u with inp := s.inp } = .next (succeeded out u) := by
  have hagain : effect i (withReport u.err (succeeded out u).tx u) = .ok (withReport u.err (succeeded out u).tx u, out) := by
    rw [effect_withReport, hfix]; rfl
  have hexec := exec_eq_succeeded hagain
  rw [← effect_inp h]
  exact hexec

/-! ### The rules of the idempotent commands -/

/-- CONFIGURE does not read CFG, all of which it writes (R138). -/
theorem configureEffect_withCfg (mono rate : Bool) (n : Nat) (c : Cfg) (s : State) :
    configureEffect mono rate n (withCfg c s) = configureEffect mono rate n s := rfl

/-- INIT_STATES does not read the slot file, all of which it writes (R150). -/
theorem initStatesEffect_withSlots (f : SlotFile) (s : State) : initStatesEffect (withSlots f s) = initStatesEffect s := rfl

/-- WRITE_STATE does not read the slot that it writes (R151). -/
theorem writeStateEffect_withSlots_writeSlot (id : SlotId) (pred : Sample) (v : ChannelState) (s : State) :
    writeStateEffect id.stream id.chan pred (withSlots (writeSlot s.slots id v) s) =
      writeStateEffect id.stream id.chan pred s := by
  simp only [writeStateEffect, withSlots, slotOperand_slot, except_ok_bind, writeSlot_writeSlot]
  rfl

/-- The rules of R54's commands are idempotent: five leave the state as it is, and three do not read what they write. -/
theorem effect_again {i : Instr} {mono rate : Bool} {a b : Nat} {pred : Sample} {s u : State} {out : List Byte}
    (hi : i ∈ [.geometry, .locate a b, .readState a b, .decodeChunk, .decodeContainer, .configure mono rate a, .initStates,
      .writeState a b pred])
    (h : effect i s = .ok (u, out)) : effect i u = .ok (u, out) := by
  simp only [List.mem_cons, List.not_mem_nil, or_false] at hi
  rcases hi with rfl | rfl | rfl | rfl | rfl | rfl | rfl | rfl
  · obtain ⟨-, -, rfl, -⟩ := geometryEffect_ok h; exact h
  · obtain ⟨-, -, -, -, rfl⟩ := locateEffect_ok h; exact h
  · obtain ⟨_, -, -, -, rfl, -⟩ := readStateEffect_ok h; exact h
  · obtain ⟨_, -, -, -, rfl, -⟩ := decodeChunkEffect_ok h; exact h
  · obtain ⟨_, -, -, rfl, -⟩ := decodeContainerEffect_ok h; exact h
  · obtain ⟨-, -, -, rfl, -⟩ := configureEffect_ok h
    exact (configureEffect_withCfg _ _ _ _ s).trans h
  · obtain ⟨-, rfl, -⟩ := initStatesEffect_ok h
    exact (initStatesEffect_withSlots _ s).trans h
  · obtain ⟨id, rfl, rfl, -, -, rfl, -⟩ := writeStateEffect_ok h
    exact (writeStateEffect_withSlots_writeSlot id pred _ s).trans h

/-- Settles O16: a raise is repeated by every command, a success by those whose rule is idempotent. -/
theorem repeatingAnIdempotentCommand : Obligations.RepeatingAnIdempotentCommand := by
  intro s t i mono rate a b pred hi h
  rcases exec_cases h with ⟨k, hk, rfl⟩ | ⟨u, out, hu, rfl⟩
  · exact exec_again_of_error hk
  · exact exec_again_of_ok hu (effect_again hi hu)

end Sys2Proof.Machine
end

section
/-! PROOFS. 30_encoding.md R61, R69, R75: the opcode map. A row that selects a word fixes the word's bits under its mask, the OPC
field among them; so at most one row selects a word, and the decoder's chain of tests reads that row, wherever it stands. -/

namespace Sys2Proof

/-! ### What a row that selects a word says about it -/

theorem Row.selects_iff {r : Row} {h : Word} : r.selects h = true ↔ h &&& r.mask = r.pattern := by
  simp [Row.selects]

/-- Where the mask is all ones, the word holds the pattern's bits. -/
theorem Row.selects_fixed {r : Row} {h : Word} (hsel : r.selects h = true) {lo len : Nat}
    (hmask : r.mask.extractLsb' lo len = BitVec.allOnes len) : h.extractLsb' lo len = r.pattern.extractLsb' lo len := by
  rw [← Row.selects_iff.mp hsel, BitVec.extractLsb'_and, hmask, BitVec.and_allOnes]

/-- Every row fixes OPC (R61). -/
theorem mask_opc_of_mem : ∀ r ∈ opcodeRows, r.mask.extractLsb' 24 8 = BitVec.allOnes 8 := by decide

theorem Row.selects_opc {r : Row} {h : Word} (hr : r ∈ opcodeRows) (hsel : r.selects h = true) :
    h >>> 24 = r.pattern >>> 24 := by
  rw [BitVec.ushiftRight_eq_extractLsb'_of_lt (by decide), BitVec.ushiftRight_eq_extractLsb'_of_lt (by decide),
    Row.selects_fixed hsel (mask_opc_of_mem r hr)]

/-- Each row fixes OPC to a different value (R61). -/
theorem row_eq_of_opc : ∀ r ∈ opcodeRows, ∀ r' ∈ opcodeRows, r.pattern >>> 24 = r'.pattern >>> 24 → r = r' := by decide

/-- Settles O3: two rows that select one word have its OPC, and each row has its own. -/
theorem noTwoOpcodeRowsOverlap : Obligations.NoTwoOpcodeRowsOverlap := by
  intro h r hr r' hr' hsel hsel'
  exact row_eq_of_opc r hr r' hr' ((Row.selects_opc hr hsel).symm.trans (Row.selects_opc hr' hsel'))

/-! ### The decoder as a table -/

/-- R61's rows, in the decoder's order, each with the instruction that it reads from a word. -/
def decodeRows : List (Row × (Word → Instr)) :=
  [(rowConfigure, fun h => .configure (h.getLsbD 0) (h.getLsbD 1) (field h 4 3)),
   (rowGeometry, fun _ => .geometry),
   (rowLocate, fun h => .locate (chanField h) (field h 0 16)),
   (rowInitStates, fun _ => .initStates),
   (rowWriteState, fun h => .writeState (streamField h) (chanField h) (immField h)),
   (rowReadState, fun h => .readState (streamField h) (chanField h)),
   (rowExpand, fun h => .expand (streamField h) (chanField h) (h.extractLsb' 0 4)),
   (rowCompress, fun h => .compress (streamField h) (chanField h) (immField h)),
   (rowDecodeChunk, fun _ => .decodeChunk),
   (rowEncodeChunk, fun h => .encodeChunk (streamField h) (chanField h)),
   (rowDecodeContainer, fun _ => .decodeContainer),
   (rowEncodeContainer, fun _ => .encodeContainer)]

/-- The first row of a table that selects the word reads it. -/
def decodeBy : List (Row × (Word → Instr)) → Word → Except DecodeReject Instr
  | [], h => .error (if opcodeKnown h then .mustBeZero else .reservedOpcode)
  | d :: ds, h => if d.1.selects h then .ok (d.2 h) else decodeBy ds h

theorem decode_eq_decodeBy (h : Word) : decode h = decodeBy decodeRows h := rfl

theorem decodeRows_rows : decodeRows.map Prod.fst = opcodeRows := rfl

theorem mem_opcodeRows {d : Row × (Word → Instr)} (hd : d ∈ decodeRows) : d.1 ∈ opcodeRows :=
  List.mem_map_of_mem (f := Prod.fst) hd

theorem decodeBy_ok {ds : List (Row × (Word → Instr))} {h : Word} {i : Instr} (hdec : decodeBy ds h = .ok i) :
    ∃ d ∈ ds, d.1.selects h = true ∧ d.2 h = i := by
  induction ds with
  | nil => cases hdec
  | cons d ds ih =>
    rw [decodeBy] at hdec
    split at hdec
    · rename_i hsel
      exact ⟨d, List.mem_cons_self, hsel, Except.ok.inj hdec⟩
    · obtain ⟨d', hd', hread⟩ := ih hdec
      exact ⟨d', List.mem_cons_of_mem d hd', hread⟩

/-- A row that is the only one of the table to select the word reads it. -/
theorem decodeBy_of_selects {ds : List (Row × (Word → Instr))} {h : Word} {d : Row × (Word → Instr)} (hd : d ∈ ds)
    (hsel : d.1.selects h = true) (honly : ∀ d' ∈ ds, d'.1.selects h = true → d' = d) : decodeBy ds h = .ok (d.2 h) := by
  induction ds with
  | nil => cases hd
  | cons d' ds ih =>
    rw [decodeBy]
    split
    · rename_i hsel'
      rw [honly d' List.mem_cons_self hsel']
    · rename_i hsel'
      have htail : d ∈ ds := (List.mem_cons.mp hd).resolve_left fun e => hsel' (e ▸ hsel)
      exact ih htail fun d'' hd'' => honly d'' (List.mem_cons_of_mem d' hd'')

theorem decodeBy_of_none {ds : List (Row × (Word → Instr))} {h : Word} (hnone : ∀ d ∈ ds, d.1.selects h = false) :
    decodeBy ds h = .error (if opcodeKnown h then .mustBeZero else .reservedOpcode) := by
  induction ds with
  | nil => rfl
  | cons d ds ih =>
    rw [decodeBy, hnone d List.mem_cons_self]
    exact ih fun d' hd' => hnone d' (List.mem_cons_of_mem d hd')

/-- The row that selects a word reads it, whichever rows stand before it. -/
theorem decode_of_selects {d : Row × (Word → Instr)} {h : Word} (hd : d ∈ decodeRows) (hsel : d.1.selects h = true) :
    decode h = .ok (d.2 h) := by
  have hdistinct : (decodeRows.map Prod.fst).Nodup := by rw [decodeRows_rows]; decide
  refine decodeBy_of_selects hd hsel fun d' hd' hsel' => List.inj_on_of_nodup_map hdistinct hd' hd ?_
  exact noTwoOpcodeRowsOverlap h d'.1 (mem_opcodeRows hd') d.1 (mem_opcodeRows hd) hsel' hsel

theorem decode_ok_iff {h : Word} {i : Instr} :
    decode h = .ok i ↔ ∃ d ∈ decodeRows, d.1.selects h = true ∧ d.2 h = i := by
  refine ⟨fun hdec => decodeBy_ok (decode_eq_decodeBy h ▸ hdec), ?_⟩
  rintro ⟨d, hd, hsel, rfl⟩
  exact decode_of_selects hd hsel

theorem decode_of_no_row {h : Word} (hnone : ∀ r ∈ opcodeRows, h &&& r.mask ≠ r.pattern) :
    decode h = .error (if opcodeKnown h then .mustBeZero else .reservedOpcode) :=
  decodeBy_of_none fun d hd => Bool.eq_false_iff.mpr fun hsel => hnone d.1 (mem_opcodeRows hd) (Row.selects_iff.mp hsel)

/-- Settles O4: the decoder's rows are the table's rows, and a word is read by a row that selects it. -/
theorem decodeFollowsTheTable : Obligations.DecodeFollowsTheTable := by
  intro h
  constructor
  · rintro ⟨i, hdec⟩
    obtain ⟨d, hd, hsel, -⟩ := decode_ok_iff.mp hdec
    exact ⟨d.1, mem_opcodeRows hd, Row.selects_iff.mp hsel⟩
  · rintro ⟨r, hr, hmatch⟩
    rw [← decodeRows_rows] at hr
    obtain ⟨d, hd, rfl⟩ := List.mem_map.mp hr
    exact ⟨d.2 h, decode_of_selects hd (Row.selects_iff.mpr hmatch)⟩

/-! ### Reserved opcodes (R75) -/

/-- R75's reserved values, as the OPC field shifted down. -/
def ReservedOpc (opc : Word) : Prop :=
  opc = 0 ∨ (0x07#32 ≤ opc ∧ opc ≤ 0x0F#32) ∨ (0x12#32 ≤ opc ∧ opc ≤ 0x1F#32) ∨ (0x22#32 ≤ opc ∧ opc ≤ 0x2F#32) ∨ 0x32#32 ≤ opc

theorem not_reservedOpc_of_mem : ∀ r ∈ opcodeRows, ¬ReservedOpc (r.pattern >>> 24) := by
  unfold ReservedOpc
  decide

theorem opcodeKnown_of_reserved {h : Word} (hres : ReservedOpc (h >>> 24)) : opcodeKnown h = false := by
  refine List.any_eq_false.mpr fun r hr heq => not_reservedOpc_of_mem r hr ?_
  rwa [eq_of_beq heq]

/-- Settles O5: a row that selected the word would have its OPC, and no row has a reserved one. -/
theorem reservedOpcodesAreRejected : Obligations.ReservedOpcodesAreRejected := by
  intro h hres
  have hnone : ∀ r ∈ opcodeRows, h &&& r.mask ≠ r.pattern := fun r hr hmatch =>
    not_reservedOpc_of_mem r hr (Row.selects_opc hr (Row.selects_iff.mpr hmatch) ▸ hres)
  rw [decode_of_no_row hnone, opcodeKnown_of_reserved hres]
  rfl

end Sys2Proof
end

section
/-! PROOFS. 30_encoding.md R56, R61, R69, R79: decoding and encoding undo each other. Each row reads back the operands that the
encoder wrote, and the operands a row reads, with the bits its mask fixes, are the whole word. -/

namespace Sys2Proof

/-! ### The fields of a word written by the encoder -/

theorem streamField_slotHeader (opc : Byte) {stream : Nat} (chan : Nat) (imm : BitVec 16) (hs : stream < 16) :
    streamField (slotHeader opc stream chan imm) = stream := by
  rw [streamField, field, slotHeader, BitVec.extractLsb'_append_eq_of_le (by decide),
    BitVec.extractLsb'_append_eq_of_le (by decide), BitVec.extractLsb'_append_eq_right, BitVec.toNat_ofNat,
    Nat.mod_eq_of_lt hs]

theorem chanField_slotHeader (opc : Byte) (stream : Nat) {chan : Nat} (imm : BitVec 16) (hc : chan < 16) :
    chanField (slotHeader opc stream chan imm) = chan := by
  rw [chanField, field, slotHeader, BitVec.extractLsb'_append_eq_of_le (by decide), BitVec.extractLsb'_append_eq_right,
    BitVec.toNat_ofNat, Nat.mod_eq_of_lt hc]

@[simp] theorem immField_slotHeader (opc : Byte) (stream chan : Nat) (imm : BitVec 16) :
    immField (slotHeader opc stream chan imm) = imm :=
  BitVec.extractLsb'_append_eq_right

/-- The immediate read as a number. -/
@[simp] theorem field_slotHeader (opc : Byte) (stream chan : Nat) (imm : BitVec 16) :
    field (slotHeader opc stream chan imm) 0 16 = imm.toNat :=
  congrArg BitVec.toNat (immField_slotHeader opc stream chan imm)

/-- The immediate's low nibble. -/
theorem lowNibble_slotHeader (opc : Byte) (stream chan : Nat) (imm : BitVec 16) :
    (slotHeader opc stream chan imm).extractLsb' 0 4 = imm.extractLsb' 0 4 :=
  BitVec.extractLsb'_append_eq_of_add_le (by decide)

/-- A row selects a slot command's word when OPC is the row's and the mask's other bits meet zeros only. -/
theorem selects_slotHeader {r : Row} {opc : Byte} {stream chan : Nat} {imm : BitVec 16} (ms mc : BitVec 4) (mi : BitVec 16)
    (hmask : r.mask = 0xFF#8 ++ ms ++ mc ++ mi) (hpattern : r.pattern = opc ++ 0#4 ++ 0#4 ++ 0#16)
    (hs : BitVec.ofNat 4 stream &&& ms = 0#4) (hc : BitVec.ofNat 4 chan &&& mc = 0#4) (hi : imm &&& mi = 0#16) :
    r.selects (slotHeader opc stream chan imm) = true := by
  have hopc : opc &&& 0xFF#8 = opc := BitVec.and_allOnes
  rw [Row.selects_iff, hmask, hpattern, slotHeader, BitVec.and_append, BitVec.and_append, BitVec.and_append, hopc, hs, hc, hi]

/-- CONFIGURE's word has its row's fixed bits, and its three operands in H[0], H[1] and H[6:4] (R62). -/
theorem configure_word (mono rate : Bool) (n : BitVec 3) :
    let w := 0x01#8 ++ 0#8 ++ 0#8 ++ 0#1 ++ n ++ 0#2 ++ BitVec.ofBool rate ++ BitVec.ofBool mono
    rowConfigure.selects w = true ∧ w.getLsbD 0 = mono ∧ w.getLsbD 1 = rate ∧ w.extractLsb' 4 3 = n := by
  revert mono rate n
  decide

/-! ### Decoding an encoded instruction -/

/-- The word of a row decodes to what the row reads from it; the row is given by its place in the table. -/
theorem decode_of_row (n : Nat) {r : Row} {f : Word → Instr} {h : Word} {i : Instr} (hrow : decodeRows[n]? = some (r, f))
    (hsel : r.selects h = true) (hread : f h = i) : decode h = .ok i :=
  decode_ok_iff.mpr ⟨(r, f), List.mem_of_getElem? hrow, hsel, hread⟩

/-- Settles O1: the instruction's own row selects its word, and reads every field as the encoder wrote it. -/
theorem decodeOfEncodeIsTheInstruction : Obligations.DecodeOfEncodeIsTheInstruction := by
  intro i hwf
  cases i with
  | configure mono rate scount =>
    obtain ⟨hsel, hmono, hrate, hscount⟩ := configure_word mono rate (BitVec.ofNat 3 scount)
    refine decode_of_row 0 rfl hsel ?_
    have hfield : field (encode (.configure mono rate scount)) 4 3 = scount := by
      rw [field, encode, hscount, BitVec.toNat_ofNat, Nat.mod_eq_of_lt hwf]
    simp only [encode] at hfield ⊢
    rw [hmono, hrate, hfield]
  | geometry => exact decode_of_row 1 rfl (by decide) rfl
  | locate chan chunk =>
    obtain ⟨hc, hk⟩ := hwf
    refine decode_of_row 2 rfl (selects_slotHeader 0xF#4 0#4 0#16 rfl rfl (by decide) (by simp) (by simp)) ?_
    simp [encode, chanField_slotHeader, hc, Nat.mod_eq_of_lt hk]
  | initStates => exact decode_of_row 3 rfl (by decide) rfl
  | writeState stream chan pred =>
    obtain ⟨hs, hc⟩ := hwf
    refine decode_of_row 4 rfl (selects_slotHeader 0#4 0#4 0#16 rfl rfl (by simp) (by simp) (by simp)) ?_
    simp [encode, streamField_slotHeader, chanField_slotHeader, hs, hc]
  | readState stream chan =>
    obtain ⟨hs, hc⟩ := hwf
    refine decode_of_row 5 rfl (selects_slotHeader 0#4 0#4 0xFFFF#16 rfl rfl (by simp) (by simp) (by decide)) ?_
    simp [encode, streamField_slotHeader, chanField_slotHeader, hs, hc]
  | expand stream chan nib =>
    obtain ⟨hs, hc⟩ := hwf
    have himm : (0#12 ++ nib) &&& 0xFFF0#16 = 0#16 := by
      rw [show 0xFFF0#16 = 0xFFF#12 ++ 0#4 from rfl, BitVec.and_append, BitVec.and_zero]
      rfl
    have hnib : (0#12 ++ nib).extractLsb' 0 4 = nib := BitVec.extractLsb'_append_eq_right
    refine decode_of_row 6 rfl (selects_slotHeader 0#4 0#4 0xFFF0#16 rfl rfl (by simp) (by simp) himm) ?_
    simp [encode, streamField_slotHeader, chanField_slotHeader, lowNibble_slotHeader, hs, hc, hnib]
  | compress stream chan sample =>
    obtain ⟨hs, hc⟩ := hwf
    refine decode_of_row 7 rfl (selects_slotHeader 0#4 0#4 0#16 rfl rfl (by simp) (by simp) (by simp)) ?_
    simp [encode, streamField_slotHeader, chanField_slotHeader, hs, hc]
  | decodeChunk => exact decode_of_row 8 rfl (by decide) rfl
  | encodeChunk stream chan =>
    obtain ⟨hs, hc⟩ := hwf
    refine decode_of_row 9 rfl (selects_slotHeader 0#4 0#4 0xFFFF#16 rfl rfl (by simp) (by simp) (by decide)) ?_
    simp [encode, streamField_slotHeader, chanField_slotHeader, hs, hc]
  | decodeContainer => exact decode_of_row 10 rfl (by decide) rfl
  | encodeContainer => exact decode_of_row 11 rfl (by decide) rfl

/-! ### Encoding a decoded word -/

theorem field_lt (h : Word) (lo len : Nat) : field h lo len < 2 ^ len := BitVec.isLt _

@[simp] theorem ofNat_field (h : Word) (lo len : Nat) : BitVec.ofNat len (field h lo len) = h.extractLsb' lo len :=
  (BitVec.ofNat_toNat ..).trans (BitVec.setWidth_eq _)

theorem slotFields_fit (h : Word) : slotFieldsFit (streamField h) (chanField h) := ⟨field_lt h 20 4, field_lt h 16 4⟩

/-- A word is the slot command's word of its four fields. -/
theorem slotHeader_eq {h : Word} {opc : Byte} {stream chan : Nat} {imm : BitVec 16} (hopc : h.extractLsb' 24 8 = opc)
    (hs : BitVec.ofNat 4 stream = h.extractLsb' 20 4) (hc : BitVec.ofNat 4 chan = h.extractLsb' 16 4)
    (hi : imm = h.extractLsb' 0 16) : slotHeader opc stream chan imm = h := by
  rw [slotHeader, ← hopc, hs, hc, hi]
  repeat rw [BitVec.extractLsb'_append_extractLsb'_eq_extractLsb' (by decide)]
  exact BitVec.extractLsb'_eq_self

theorem ofBool_getLsbD (h : Word) (n : Nat) : BitVec.ofBool (h.getLsbD n) = h.extractLsb' n 1 := by
  ext k hk
  obtain rfl : k = 0 := by omega
  simp

/-- A word that CONFIGURE's row selects is the word of the operands the row reads. -/
theorem encode_configure_of_selects {h : Word} (hsel : rowConfigure.selects h = true) :
    encode (.configure (h.getLsbD 0) (h.getLsbD 1) (field h 4 3)) = h := by
  have hhi : h.extractLsb' 7 25 = 0x01#8 ++ 0#8 ++ 0#8 ++ 0#1 := Row.selects_fixed hsel rfl
  have hmid : h.extractLsb' 2 2 = 0#2 := Row.selects_fixed hsel rfl
  rw [encode, ← hhi, ← hmid, ofNat_field, ofBool_getLsbD, ofBool_getLsbD]
  repeat rw [BitVec.extractLsb'_append_extractLsb'_eq_extractLsb' (by decide)]
  exact BitVec.extractLsb'_eq_self

/-- A row without operands selects its own pattern only. -/
theorem Row.selects_exact {r : Row} {h : Word} (hsel : r.selects h = true) (hmask : r.mask = BitVec.allOnes 32) :
    r.pattern = h := by
  rw [← Row.selects_iff.mp hsel, hmask, BitVec.and_allOnes]

/-- What each row reads from a word that it selects is well formed, and encodes to the word. -/
theorem encode_read_of_selects : ∀ d ∈ decodeRows, ∀ h, d.1.selects h = true → (d.2 h).wf ∧ encode (d.2 h) = h := by
  simp only [decodeRows, List.forall_mem_cons]
  refine ⟨?configure, ?geometry, ?locate, ?initStates, ?writeState, ?readState, ?expand, ?compress, ?decodeChunk,
    ?encodeChunk, ?decodeContainer, ?encodeContainer, ?none⟩
  case none => simp
  all_goals intro h hsel
  case configure => exact ⟨field_lt h 4 3, encode_configure_of_selects hsel⟩
  case geometry | initStates | decodeChunk | decodeContainer | encodeContainer =>
    exact ⟨trivial, Row.selects_exact hsel rfl⟩
  case locate =>
    have hstream : h.extractLsb' 20 4 = 0#4 := Row.selects_fixed hsel rfl
    exact ⟨⟨field_lt h 16 4, field_lt h 0 16⟩,
      slotHeader_eq (Row.selects_fixed hsel rfl) hstream.symm (ofNat_field ..) (ofNat_field ..)⟩
  case writeState | compress =>
    exact ⟨slotFields_fit h, slotHeader_eq (Row.selects_fixed hsel rfl) (ofNat_field ..) (ofNat_field ..) rfl⟩
  case readState | encodeChunk =>
    have himm : h.extractLsb' 0 16 = 0#16 := Row.selects_fixed hsel rfl
    exact ⟨slotFields_fit h, slotHeader_eq (Row.selects_fixed hsel rfl) (ofNat_field ..) (ofNat_field ..) himm.symm⟩
  case expand =>
    have hzero : h.extractLsb' 4 12 = 0#12 := Row.selects_fixed hsel rfl
    have himm : 0#12 ++ h.extractLsb' 0 4 = h.extractLsb' 0 16 := by
      rw [← hzero, BitVec.extractLsb'_append_extractLsb'_eq_extractLsb' (by decide)]
    exact ⟨slotFields_fit h, slotHeader_eq (Row.selects_fixed hsel rfl) (ofNat_field ..) (ofNat_field ..) himm⟩

/-- Settles O2: the word is one that a row selects, and the instruction what that row reads from it. -/
theorem encodeOfDecodeIsTheWord : Obligations.EncodeOfDecodeIsTheWord := by
  intro h i hdec
  obtain ⟨d, hd, hsel, rfl⟩ := decode_ok_iff.mp hdec
  exact encode_read_of_selects d hd h hsel

/-- Settles O6: each word is closed, and the decoder runs on it. -/
theorem wordsOfTheSpecDecode : Obligations.WordsOfTheSpecDecode := ⟨rfl, rfl, rfl, rfl, rfl, rfl, rfl⟩

end Sys2Proof
end

section
/-! PROOFS. 00_scope.md R12 with 30_encoding.md R55, R70: a little-endian number written into a byte sequence is read back at its
offset, so a frame and a response are laid out as written, and a frame is cut off the port by its own length word. -/

namespace Sys2Proof.Machine

/-! ### Reading a byte sequence at an offset -/

theorem slice_append_left {A B : List Byte} {n : Nat} (hA : A.length = n) : slice (A ++ B) 0 n = A :=
  List.take_left' hA

theorem slice_append_right {A B : List Byte} {n : Nat} (hA : A.length = n) (len : Nat) :
    slice (A ++ B) n len = slice B 0 len := by
  rw [slice, List.drop_left' hA, slice, List.drop_zero]

/-- A number that fits its width is read back from the front of a sequence. -/
theorem memRead_leBytes {n v : Nat} (rest : List Byte) (hv : v < 256 ^ n) : memRead (leBytes n v ++ rest) 0 n = v := by
  rw [memRead, slice_append_left (leBytes_length n v), leNat_leBytes, Nat.mod_eq_of_lt hv]

/-- And from behind another number. -/
theorem memRead_leBytes_leBytes {m n v : Nat} (u : Nat) (rest : List Byte) (hv : v < 256 ^ n) :
    memRead (leBytes m u ++ (leBytes n v ++ rest)) m n = v := by
  rw [memRead, slice_append_right (leBytes_length m u)]
  exact memRead_leBytes rest hv

/-- Two numbers, and what follows them. -/
theorem drop_leBytes_leBytes (m n u v : Nat) (rest : List Byte) :
    (leBytes m u ++ (leBytes n v ++ rest)).drop (m + n) = rest := by
  rw [← List.append_assoc]
  exact List.drop_left' (by simp)

/-! ### Frames -/

/-- The layout of a frame, and of the bytes that a frame begins (R55). -/
theorem encodeFrame_append (h : Word) (payload rest : List Byte) :
    encodeFrame h payload ++ rest = leBytes 4 h.toNat ++ (leBytes 4 payload.length ++ (payload ++ rest)) := by
  simp only [encodeFrame, List.append_assoc]

theorem encodeFrame_eq (h : Word) (payload : List Byte) :
    encodeFrame h payload = leBytes 4 h.toNat ++ (leBytes 4 payload.length ++ payload) := by
  simpa using encodeFrame_append h payload []

@[simp] theorem encodeFrame_length (h : Word) (payload : List Byte) : (encodeFrame h payload).length = 8 + payload.length := by
  simp only [encodeFrame_eq, List.length_append, leBytes_length]
  omega

/-- A frame that stands first on the port is cut off whole (R55, R72). -/
theorem parseFrame_encodeFrame (h : Word) {payload : List Byte} (rest : List Byte) (hlen : payload.length < 2 ^ 32) :
    parseFrame (encodeFrame h payload ++ rest) = some (h, payload, rest) := by
  have hN : memRead (encodeFrame h payload ++ rest) 4 4 = payload.length := by
    rw [encodeFrame_append]; exact memRead_leBytes_leBytes _ _ hlen
  have hH : memRead (encodeFrame h payload ++ rest) 0 4 = h.toNat := by
    rw [encodeFrame_append]; exact memRead_leBytes _ h.isLt
  have hIN : slice (encodeFrame h payload ++ rest) 8 payload.length = payload := by
    rw [encodeFrame_append, slice, drop_leBytes_leBytes 4 4]; exact slice_append_left rfl
  have hrest : (encodeFrame h payload ++ rest).drop (8 + payload.length) = rest := List.drop_left' (by simp)
  have h8 : ¬(encodeFrame h payload ++ rest).length < 8 := by simp; omega
  have hall : ¬(encodeFrame h payload ++ rest).length < 8 + payload.length := by simp
  simp only [parseFrame, hN, hH, hIN, hrest, h8, hall, if_false, BitVec.ofNat_toNat, BitVec.setWidth_eq]

/-- Settles O7: each field is read back where the frame's layout puts it, and the length word cuts the frame off. -/
theorem frameIsCutOffWhole : Obligations.FrameIsCutOffWhole := by
  intro h payload rest hlen
  refine ⟨encodeFrame_length h payload, ?_, ?_, ?_, parseFrame_encodeFrame h rest hlen⟩
  all_goals rw [encodeFrame_eq]
  · exact memRead_leBytes _ h.isLt
  · exact memRead_leBytes_leBytes _ _ hlen
  · exact drop_leBytes_leBytes 4 4 _ _ _

/-! ### Responses -/

/-- The layout of a response (R70). -/
theorem responseBytes_eq (r : Response) :
    responseBytes r = leBytes 4 r.status.toNat ++ (leBytes 8 r.out.length ++ r.out) :=
  List.append_assoc ..

/-- Settles O10: each field is read back where the response's layout puts it. -/
theorem responseFrameLayout : Obligations.ResponseFrameLayout := by
  intro r hlen
  rw [responseBytes_eq]
  refine ⟨?_, memRead_leBytes _ r.status.isLt, memRead_leBytes_leBytes _ _ hlen, drop_leBytes_leBytes 4 8 _ _ _⟩
  simp only [List.length_append, leBytes_length]
  omega

end Sys2Proof.Machine
end

section
/-! PROOFS. 30_encoding.md R59, R71 to R73, 41_frame_codec.md R110, R111, 60_exceptions.md R163, R166: how a command ends, and the
checks that come first in a command's rule. -/

namespace Sys2Proof.Machine

/-! ### A frame that is no command -/

/-- A header word that does not decode raises IllegalCommand (R72). -/
theorem runHeader_eq_raised {h : Word} {e : DecodeReject} (hdec : decode h = .error e) (s : State) :
    runHeader h s = .next (raised .illegalCommand s) := by
  simp only [runHeader, hdec, raise]

/-- Settles O9: the frame is cut off and accepted, its word matches no row, and the raise writes ERR and the response. -/
theorem illegalWordRaisesAndConsumesItsPayload : Obligations.IllegalWordRaisesAndConsumesItsPayload := by
  intro s h payload rest hlen hnone hrx htx
  have hframe : parseFrame s.rx = some (h, payload, rest) := hrx ▸ parseFrame_encodeFrame h rest hlen
  calc step s = runFrame h payload rest s := step_eq_runFrame hframe
    _ = runHeader h (acceptFrame payload rest s) := runFrame_eq_runHeader h payload rest htx
    _ = .next (raised .illegalCommand (acceptFrame payload rest s)) := runHeader_eq_raised (decode_of_no_row hnone) _

/-! ### The two ends of a command -/

theorem exec_total (i : Instr) (s : State) : ∃ t, exec i s = .next t := by
  rw [exec_eq_complete]
  obtain ⟨k, -, h⟩ | ⟨u, out, -, h⟩ := complete_cases s (effect i s)
  · exact ⟨_, h⟩
  · exact ⟨_, h⟩

theorem errorCode_bounds (k : ErrKind) : 1 ≤ errorCode k ∧ errorCode k ≤ 6 := by
  cases k <;> decide

/-- Settles O11: a command ends in a success, whose rule has left ERR alone, or in the raise of one of the six kinds. -/
theorem everyCommandSucceedsOrRaises : Obligations.EveryCommandSucceedsOrRaises := by
  intro i s
  obtain ⟨t, h⟩ := exec_total i s
  refine ⟨t, h, ?_⟩
  obtain ⟨k, -, rfl⟩ | ⟨u, out, hu, rfl⟩ := exec_cases h
  · exact .inr ⟨errorCode k, (errorCode_bounds k).1, (errorCode_bounds k).2, rfl⟩
  · have herr : u.err = s.err := by rw [effect_frame hu]
    exact .inl ⟨herr, rfl, out, by rw [succeeded_tx, herr]; rfl⟩

/-! ### Stage 2: the payload's length and the slot operand -/

theorem payloadIs_error {n : Nat} {s : State} (h : s.inp.length ≠ n) : payloadIs n s = .error .illegalCommand := by
  rw [payloadIs, beq_false_of_ne h, require_false]

/-- Settles O17: the length is the first check in each of the eight rules. -/
theorem wrongFixedLengthRaises : Obligations.WrongFixedLengthRaises := by
  intro s mono rate n c k stream chan pred x nib
  refine ⟨fun hinp i hi => exec_eq_raised ?_, fun hlen => exec_eq_raised ?_, fun hlen => exec_eq_raised ?_⟩
  · have hlen : s.inp.length ≠ 0 := mt List.length_eq_zero_iff.mp hinp
    simp only [List.mem_cons, List.not_mem_nil, or_false] at hi
    rcases hi with rfl | rfl | rfl | rfl | rfl | rfl
    all_goals
      simp only [effect, configureEffect, geometryEffect, initStatesEffect, readStateEffect, expandEffect, compressEffect,
        payloadIs_error hlen, except_error_bind]
  · simp only [effect, writeStateEffect, payloadIs_error hlen, except_error_bind]
  · simp only [effect, locateEffect, payloadIs_error hlen, except_error_bind]

/-- A rule that goes on to raise IllegalCommand raises it whatever the payload's length: a wrong length raises it too. -/
theorem payloadIs_bind_illegal {α : Type} (n : Nat) (s : State) {f : Unit → Except ErrKind α}
    (hf : f () = .error .illegalCommand) : (payloadIs n s >>= f) = .error .illegalCommand := by
  by_cases h : s.inp.length = n
  · rw [payloadIs_of_length h, except_ok_bind, hf]
  · rw [payloadIs_error h, except_error_bind]

/-! ### Behind the configuration: LOCATE's bounds and a chunk's length -/

theorem configured_valid {s : State} (h : s.cfg.valid = true) : configured s = .ok (geometry s.cfg) := by
  simp [configured, h]

/-- R120's values at the two sample rates. -/
theorem chunksPerInterleave_eq (c : Cfg) : chunksPerInterleave c = if c.rate then 128 else 64 := by
  unfold chunksPerInterleave chunkSize
  cases c.rate <;> rfl

theorem two_mul_chunkSamples (c : Cfg) : 2 * chunkSamples c = if c.rate then 2034 else 4082 := by
  unfold chunkSamples payloadBytes chunkSize
  cases c.rate <;> rfl

/-- Settles O18: a slot that does not exist raises at the slot check or at the length check before it, and LOCATE's bounds are those
of the geometry. -/
theorem slotOrChunkOutOfRangeRaises : Obligations.SlotOrChunkOutOfRangeRaises := by
  intro s stream chan pred x nib c k
  refine ⟨fun hout i hi => exec_eq_raised ?_, fun hlen hvalid hout => exec_eq_raised ?_⟩
  · have hslot := slotOperand_out hout
    simp only [List.mem_cons, List.not_mem_nil, or_false] at hi
    rcases hi with rfl | rfl | rfl | rfl | rfl
    iterate 4 exact payloadIs_bind_illegal _ s (by simp only [hslot, except_error_bind])
    simp only [effect, encodeChunkEffect, hslot, except_error_bind]
  · have hbounds : ¬(c < channelCount s.cfg ∧ k < chunksPerInterleave s.cfg) := by
      rw [chunksPerInterleave_eq, channelCount]
      omega
    simp only [effect, locateEffect, payloadIs_of_length hlen, configured_valid hvalid, except_ok_bind,
      geometry_channelCount, geometry_chunksPerInterleave, ← Bool.decide_and, hbounds, decide_false, require_false,
      except_error_bind]

/-- Settles O19: once configured, the length is the next check of both rules. -/
theorem wrongChunkLengthRaises : Obligations.WrongChunkLengthRaises := by
  intro s id hvalid
  have hcfg := configured_valid hvalid
  refine ⟨fun hlen => ?_, fun hlen => ?_⟩
  · have hraise : effect .decodeChunk s = .error .malformedChunk := by
      have hN : (s.inp.length == chunkSize s.cfg) = false := beq_false_of_ne hlen
      simp only [effect, decodeChunkEffect, hcfg, except_ok_bind, geometry_chunkSize, hN, require_false, except_error_bind]
    exact exec_eq_raised hraise
  · have hraise : effect (.encodeChunk id.stream id.chan) s = .error .sampleCountMismatch := by
      have hN : (s.inp.length == 2 * chunkSamples s.cfg) = false := by
        rw [two_mul_chunkSamples]; exact beq_false_of_ne hlen
      simp only [effect, encodeChunkEffect, slotOperand_slot, hcfg, except_ok_bind, geometry_chunkSamples, hN, require_false,
        except_error_bind]
    exact exec_eq_raised hraise

end Sys2Proof.Machine
end

section
/-! PROOFS. 40_sample_codec.md: the magnitude a nibble stands for, the step-index machine, and that the greedy encoder adds up exactly
the magnitude that the decoder rebuilds; then EXPAND and COMPRESS, one sample each. -/

namespace Sys2Proof.Machine

/-! ### The bits of a nibble and the magnitude they stand for (R81, R82) -/

theorem getLsbD_eq_decide (n : Nibble) (i : Nat) : n.getLsbD i = decide (n.toNat / 2 ^ i % 2 = 1) := by
  rw [← BitVec.testBit_toNat, Nat.testBit_eq_decide_div_mod_eq]

/-- A term that counts when a bit is set is the bit times the term. -/
theorem ite_getLsbD (n : Nibble) (i term : Nat) : (if n.getLsbD i then term else 0) = n.toNat / 2 ^ i % 2 * term := by
  rw [getLsbD_eq_decide]
  obtain h | h := Nat.mod_two_eq_zero_or_one (n.toNat / 2 ^ i) <;> simp [h]

/-- Bit 3 is the sign (R81). -/
theorem sign_iff (n : Nibble) : n.getLsbD 3 = true ↔ n.toNat / 8 = 1 := by
  have hn := n.isLt
  rw [getLsbD_eq_decide, decide_eq_true_iff]
  omega

theorem moved_eq (st : ChannelState) (n : Nibble) (m : Nat) :
    moved st n m = if n.toNat / 8 = 1 then st.pred.toInt - m else st.pred.toInt + m := by
  simp only [moved, sign_iff]

theorem diffmag_eq (step : Nat) (n : Nibble) :
    diffmag step n = step / 8 + n.toNat / 4 % 2 * step + n.toNat / 2 % 2 * (step / 2) + n.toNat % 2 * (step / 4) := by
  simp only [diffmag, ite_getLsbD, Nat.shiftRight_eq_div_pow, Nat.reducePow, Nat.div_one]

/-- A bit adds at most its own term. -/
theorem bit_mul_le (v term : Nat) : v % 2 * term ≤ term :=
  mul_le_of_le_one_left (Nat.zero_le term) (Nat.le_of_lt_succ (Nat.mod_lt v two_pos))

/-- With all three magnitude bits set, the step and its three shifts. -/
theorem diffmag_le (step : Nat) (n : Nibble) : diffmag step n ≤ step / 8 + step + step / 2 + step / 4 := by
  rw [diffmag_eq]
  gcongr <;> exact bit_mul_le _ _

/-- Settles O25: the shifts are floored divisions, and the largest magnitude has every bit set. -/
theorem diffmagIsTheSumOfItsTerms : Obligations.DiffmagIsTheSumOfItsTerms := by
  intro step n
  refine ⟨diffmag_eq step n, fun hstep => ?_⟩
  have hle := diffmag_le step n
  omega

/-! ### The step-index machine (R84) -/

theorem advance_toInt (idx : BitVec 16) (n : Nibble) : (advance idx n).toInt = clampIdx (idx.toInt + indexMove n) :=
  settle_idx_toInt ⟨0, idx⟩ n 0

theorem advance_toNat (idx : BitVec 16) (n : Nibble) :
    ((advance idx n).toNat : Int) = clampIdx (idx.toInt + indexMove n) := by
  have hnonneg : 0 ≤ (advance idx n).toInt := by
    rw [advance_toInt]
    exact (clampIdx_bounds _).1
  rw [← advance_toInt, BitVec.toInt_eq_toNat_of_lt (BitVec.toInt_pos_iff.mp hnonneg)]

/-- Settles O26: the index table's move (`constantTables`), clamped. -/
theorem stepIndexMachine : Obligations.StepIndexMachine := by
  intro idx n hidx
  obtain ⟨-, -, -, -, hmoves⟩ := constantTables
  have hnat := advance_toNat idx n
  rw [BitVec.toInt_eq_toNat_of_lt (by omega), hmoves n, clampIdx] at hnat
  split_ifs at hnat ⊢ <;> omega

/-! ### The greedy tests (R86) -/

/-- The outcome of one test: 1 if what is left of |delta| reaches the threshold. -/
def greedyBit (threshold left : Nat) : Nat := if threshold ≤ left then 1 else 0

/-- What one test leaves of |delta|. -/
def greedyLeft (threshold left : Nat) : Nat := left - greedyBit threshold left * threshold

/-- Magnitude bit 2: |delta| against the step. -/
def greedyBit2 (step d : Nat) : Nat := greedyBit step d

/-- Magnitude bit 1: what bit 2 left against the half. -/
def greedyBit1 (step d : Nat) : Nat := greedyBit (step / 2) (greedyLeft step d)

/-- Magnitude bit 0: what bits 2 and 1 left against the quarter. -/
def greedyBit0 (step d : Nat) : Nat := greedyBit (step / 4) (greedyLeft (step / 2) (greedyLeft step d))

/-- The three magnitude bits together, 0..7. -/
def greedyMagnitude (step d : Nat) : Nat := 4 * greedyBit2 step d + 2 * greedyBit1 step d + greedyBit0 step d

theorem greedyBit_le_one (threshold left : Nat) : greedyBit threshold left ≤ 1 := by
  unfold greedyBit
  split <;> omega

theorem greedyBits_le_one (step d : Nat) : greedyBit2 step d ≤ 1 ∧ greedyBit1 step d ≤ 1 ∧ greedyBit0 step d ≤ 1 :=
  ⟨greedyBit_le_one _ _, greedyBit_le_one _ _, greedyBit_le_one _ _⟩

theorem greedyBit_of_le {threshold left : Nat} (h : threshold ≤ left) : greedyBit threshold left = 1 := if_pos h

theorem greedyBit_of_lt {threshold left : Nat} (h : left < threshold) : greedyBit threshold left = 0 :=
  if_neg (Nat.not_le.mpr h)

theorem greedyBit_eq_zero_iff {threshold left : Nat} : greedyBit threshold left = 0 ↔ left < threshold := by
  simp [greedyBit]

theorem greedyLeft_of_le {threshold left : Nat} (h : threshold ≤ left) : greedyLeft threshold left = left - threshold := by
  rw [greedyLeft, greedyBit_of_le h, one_mul]

theorem greedyLeft_of_lt {threshold left : Nat} (h : left < threshold) : greedyLeft threshold left = left := by
  rw [greedyLeft, greedyBit_of_lt h, zero_mul, Nat.sub_zero]

/-- The model's test in terms of its outcome. -/
theorem greedyTest_eq (bit : Nibble) (threshold : Nat) (g : Greedy) :
    greedyTest bit threshold g =
      ⟨g.n ||| (if threshold ≤ g.delta then bit else 0), greedyLeft threshold g.delta,
        g.vp + greedyBit threshold g.delta * threshold⟩ := by
  by_cases h : threshold ≤ g.delta
  · simp [greedyTest, greedyLeft_of_le, greedyBit_of_le, h]
  · simp [greedyTest, greedyLeft_of_lt, greedyBit_of_lt, Nat.lt_of_not_le, h]

/-- Four separate bits, or-ed together, add up. -/
theorem toNat_or_bits (b3 b2 b1 b0 : Prop) [Decidable b3] [Decidable b2] [Decidable b1] [Decidable b0] :
    ((if b3 then (8 : Nibble) else 0) ||| (if b2 then 4 else 0) ||| (if b1 then 2 else 0) ||| (if b0 then 1 else 0)).toNat =
      8 * (if b3 then 1 else 0) + (4 * (if b2 then 1 else 0) + 2 * (if b1 then 1 else 0) + (if b0 then 1 else 0)) := by
  split_ifs <;> rfl

theorem quantize_n_toNat (step : Nat) (delta : Int) :
    (quantize step delta).n.toNat = 8 * (if delta < 0 then 1 else 0) + greedyMagnitude step delta.natAbs := by
  simp only [quantize, greedyTest_eq, Nat.shiftRight_eq_div_pow, Nat.reducePow]
  exact toNat_or_bits _ _ _ _

theorem quantize_vp (step : Nat) (delta : Int) :
    (quantize step delta).vp = step / 8 + greedyBit2 step delta.natAbs * step + greedyBit1 step delta.natAbs * (step / 2)
      + greedyBit0 step delta.natAbs * (step / 4) := by
  simp only [quantize, greedyTest_eq, Nat.shiftRight_eq_div_pow, Nat.reducePow, greedyBit2, greedyBit1, greedyBit0]

/-- The magnitude bits of a nibble are the outcomes of the tests, whatever its sign bit. -/
theorem bits_of_greedyMagnitude {v b3 step d : Nat} (hv : v = 8 * b3 + greedyMagnitude step d) :
    v / 4 % 2 = greedyBit2 step d ∧ v / 2 % 2 = greedyBit1 step d ∧ v % 2 = greedyBit0 step d := by
  obtain ⟨h2, h1, h0⟩ := greedyBits_le_one step d
  unfold greedyMagnitude at hv
  omega

theorem greedyMagnitude_le (step d : Nat) : greedyMagnitude step d ≤ 7 := by
  obtain ⟨h2, h1, h0⟩ := greedyBits_le_one step d
  unfold greedyMagnitude
  omega

/-- The sign bit is set for a negative delta alone (R86). -/
theorem quantize_sign_iff (step : Nat) (delta : Int) : (quantize step delta).n.toNat / 8 = 1 ↔ delta < 0 := by
  have hle := greedyMagnitude_le step delta.natAbs
  rw [quantize_n_toNat]
  split_ifs <;> omega

/-- The encoder has added up the magnitude that the decoder rebuilds from its nibble (R87). -/
theorem quantize_vp_eq_diffmag (step : Nat) (delta : Int) :
    (quantize step delta).vp = diffmag step (quantize step delta).n := by
  obtain ⟨h2, h1, h0⟩ := bits_of_greedyMagnitude (quantize_n_toNat step delta)
  rw [quantize_vp, diffmag_eq, h2, h1, h0]

/-- The quarter is the lowest threshold: no test succeeds exactly when |delta| is below it. -/
theorem greedyMagnitude_eq_zero_iff {step d : Nat} : greedyMagnitude step d = 0 ↔ d < step / 4 := by
  constructor
  · intro h
    have hzero : greedyBit2 step d = 0 ∧ greedyBit1 step d = 0 ∧ greedyBit0 step d = 0 := by
      unfold greedyMagnitude at h
      omega
    obtain ⟨h2, h1, h0⟩ := hzero
    have hstep : d < step := greedyBit_eq_zero_iff.mp h2
    rw [greedyBit1, greedyLeft_of_lt hstep, greedyBit_eq_zero_iff] at h1
    rw [greedyBit0, greedyLeft_of_lt hstep, greedyLeft_of_lt h1, greedyBit_eq_zero_iff] at h0
    exact h0
  · intro h
    have h2 : d < step := by omega
    have h1 : d < step / 2 := by omega
    simp only [greedyMagnitude, greedyBit2, greedyBit1, greedyBit0, greedyLeft_of_lt, greedyBit_of_lt, h2, h1, h]

/-- A |delta| of the step, its half and its quarter together passes every test: the encoder saturates (R90). -/
theorem greedyMagnitude_eq_seven {step d : Nat} (h : step + step / 2 + step / 4 ≤ d) : greedyMagnitude step d = 7 := by
  have h2 : step ≤ d := by omega
  have h1 : step / 2 ≤ d - step := by omega
  have h0 : step / 4 ≤ d - step - step / 2 := by omega
  simp only [greedyMagnitude, greedyBit2, greedyBit1, greedyBit0, greedyLeft_of_le, greedyBit_of_le, h2, h1, h0]

/-! ### The two codec functions -/

/-- Expanding the encoder's nibble from the same state settles on the encoder's new state (R87). -/
theorem expandNibble_compressSample (st : ChannelState) (x : Sample) :
    (expandNibble st (compressSample st x).2).1 = (compressSample st x).1 := by
  simp only [expandNibble, compressSample, ← quantize_vp_eq_diffmag]

theorem expandNibble_pred_toInt (st : ChannelState) (n : Nibble) :
    (expandNibble st n).1.pred.toInt = clip16 (moved st n (diffmag (stepSize st.idx) n)) := settle_pred_toInt _ _ _

/-- The sample is the new predictor (R83). -/
theorem expandNibble_sample_toInt (st : ChannelState) (n : Nibble) :
    (expandNibble st n).2.toInt = (expandNibble st n).1.pred.toInt := by
  rw [expandNibble_pred_toInt]
  simp [expandNibble]

/-- Settles O27: the encoder's magnitude is the decoder's, and both settle in the same way. -/
theorem matchedPair : Obligations.MatchedPair := fun st x =>
  ⟨expandNibble_compressSample st x, by rw [expandNibble_sample_toInt, expandNibble_compressSample]⟩

theorem compressSample_nibble_toNat (st : ChannelState) (x : Sample) :
    (compressSample st x).2.toNat = 8 * (if x.toInt - st.pred.toInt < 0 then 1 else 0) +
      greedyMagnitude (stepSize st.idx) (x.toInt - st.pred.toInt).natAbs := quantize_n_toNat _ _

/-- Every step that a legal index selects is at least STEP_TABLE's first. -/
theorem seven_le_stepSize {idx : BitVec 16} (h : idx.toNat ≤ 88) : 7 ≤ stepSize idx := by
  have hall : ∀ step ∈ stepTable, 7 ≤ step := by decide
  have hlt : idx.toNat < stepTable.length := Nat.lt_succ_of_le h
  rw [stepSize, List.getElem?_eq_getElem hlt]
  exact hall _ (List.getElem_mem hlt)

/-- Settles O28: what `greedyMagnitude` is on no delta, below a quarter of the step and past all three thresholds. -/
theorem nibbleChoice : Obligations.NibbleChoice := by
  intro st x hlo hhi
  have hn := compressSample_nibble_toNat st x
  have hle := greedyMagnitude_le (stepSize st.idx) (x.toInt - st.pred.toInt).natAbs
  refine ⟨fun heq => ?_, ?_, fun hfar => ?_⟩
  · have hstep : 7 ≤ stepSize st.idx := by
      rw [BitVec.toInt_eq_toNat_of_lt (BitVec.toInt_pos_iff.mp hlo)] at hhi
      exact seven_le_stepSize (by omega)
    have hzero : greedyMagnitude (stepSize st.idx) (x.toInt - st.pred.toInt).natAbs = 0 :=
      greedyMagnitude_eq_zero_iff.mpr (by omega)
    rw [hzero, if_neg (by omega)] at hn
    exact BitVec.eq_of_toNat_eq hn
  · rw [← BitVec.toNat_inj, hn, ← greedyMagnitude_eq_zero_iff]
    simp only [BitVec.ofNat_eq_ofNat, BitVec.reduceToNat]
    split_ifs <;> omega
  · rw [hn, greedyMagnitude_eq_seven hfar]
    omega

/-! ### EXPAND and COMPRESS (R88, R89) -/

theorem exec_expand {s : State} (hinp : s.inp = []) (id : SlotId) (n : Nibble) :
    exec (.expand id.stream id.chan n) s = .next (succeeded (bytes16 (expandNibble (readSlot s.slots id) n).2)
      { s with slots := writeSlot s.slots id (expandNibble (readSlot s.slots id) n).1 }) := by
  apply exec_eq_succeeded
  simp [effect, expandEffect, payloadIs_of_length (List.length_eq_zero_iff.mpr hinp)]

theorem exec_compress {s : State} (hinp : s.inp = []) (id : SlotId) (x : Sample) :
    exec (.compress id.stream id.chan x) s = .next (succeeded [(compressSample (readSlot s.slots id) x).2.setWidth 8]
      { s with slots := writeSlot s.slots id (compressSample (readSlot s.slots id) x).1 }) := by
  apply exec_eq_succeeded
  simp [effect, compressEffect, payloadIs_of_length (List.length_eq_zero_iff.mpr hinp)]

/-- Settles O29: the slot written holds what `expandNibble` settles on, and OUT is its sample. -/
theorem expandReconstructsOneSample : Obligations.ExpandReconstructsOneSample := by
  intro s id n hinp st step d p
  have hd : d = diffmag step n := by simp only [d, diffmag_eq]; push_cast; rfl
  have hp : p = clip16 (moved st n (diffmag step n)) := by simp only [p, hd, moved_eq, clip16]
  refine ⟨writeSlot s.slots id (expandNibble st n).1, ?_, ?_, ?_, fun j hj => ?_⟩
  · rw [hp]
    exact exec_expand hinp id n
  · rw [readSlot_writeSlot_same, expandNibble_pred_toInt, hp]
  · rw [readSlot_writeSlot_same]
    exact advance_toInt st.idx n
  · exact readSlot_writeSlot_other _ _ hj.symm

/-- Settles O30: the bits and the magnitude written out are those of `quantize`, and the slot written holds what `compressSample`
settles on. -/
theorem compressQuantizesOneSample : Obligations.CompressQuantizesOneSample := by
  intro s id x hinp st step delta b3 d2 b2 d1 b1 d0 b0 n vp
  have hvp : vp = (quantize step delta).vp := by rw [quantize_vp]; rfl
  have hn : (quantize step delta).n.toNat = n := by
    rw [quantize_n_toNat, greedyMagnitude, ← Nat.add_assoc, ← Nat.add_assoc]
    rfl
  refine ⟨writeSlot s.slots id (compressSample st x).1, ?_, ?_, ?_, fun j hj => ?_⟩
  · rw [← hn, BitVec.ofNat_toNat]
    exact exec_compress hinp id x
  · rw [readSlot_writeSlot_same, hvp]
    simp only [compressSample, settle_pred_toInt, moved_eq, quantize_sign_iff, clip16]
    rfl
  · rw [readSlot_writeSlot_same, ← hn, BitVec.ofNat_toNat, BitVec.setWidth_eq]
    exact advance_toInt st.idx (quantize step delta).n
  · exact readSlot_writeSlot_other _ _ hj.symm

end Sys2Proof.Machine
end

section
/-! PROOFS. 41_frame_codec.md R100 to R104: packed bytes as two nibbles side by side, a sample as its two bytes, and the chunk
header that is written and read back. -/

namespace Sys2Proof.Machine

/-! ### Nibble packing (R102, R103) -/

/-- The second code stands above the first. -/
theorem pack_eq_append (n1 n2 : Nibble) : pack n1 n2 = n2 ++ n1 := by
  rw [BitVec.append_def, BitVec.shiftLeftZeroExtend_eq, BitVec.setWidth'_eq]
  rfl

@[simp] theorem lowNibble_pack (n1 n2 : Nibble) : lowNibble (pack n1 n2) = n1 := by
  rw [pack_eq_append]
  exact BitVec.extractLsb'_append_eq_right

@[simp] theorem highNibble_pack (n1 n2 : Nibble) : highNibble (pack n1 n2) = n2 := by
  rw [pack_eq_append]
  exact BitVec.extractLsb'_append_eq_left

/-- Settles O34: packing puts the two codes side by side, and unpacking cuts between them. -/
theorem packAndUnpackAreInverse : Obligations.PackAndUnpackAreInverse := by
  refine ⟨fun b => ?_, fun n1 n2 => ⟨lowNibble_pack n1 n2, highNibble_pack n1 n2⟩⟩
  rw [pack_eq_append]
  exact BitVec.extractLsb'_append_extractLsb' (w := 4) (len := 4)

/-! ### A sample's two bytes (R100, 00_scope.md R12) -/

theorem bytes16_eq (x : Sample) : bytes16 x = [BitVec.ofNat 8 x.toNat, BitVec.ofNat 8 (x.toNat / 256)] := rfl

/-- A sample is read back from the front of a sequence. -/
theorem memRead_bytes16 (x : Sample) (rest : List Byte) : memRead (bytes16 x ++ rest) 0 2 = x.toNat :=
  memRead_leBytes rest x.isLt

/-- And the byte behind it. -/
theorem memRead_behind_bytes16 (x : Sample) (b : Byte) (rest : List Byte) :
    memRead (bytes16 x ++ b :: rest) 2 1 = b.toNat := by
  rw [memRead, slice_append_right (bytes16_length x)]
  simp [slice, leNat]

/-- Two bytes or more begin with a sample. -/
theorem exists_bytes16_append {B : List Byte} (h : 2 ≤ B.length) : ∃ x rest, B = bytes16 x ++ rest := by
  match B with
  | b0 :: b1 :: rest =>
    refine ⟨BitVec.ofNat 16 (b0.toNat + 256 * b1.toNat), rest, ?_⟩
    have h0 := b0.isLt
    have h1 := b1.isLt
    simp only [bytes16_eq, List.cons_append, List.nil_append, List.cons.injEq, and_true, ← BitVec.toNat_inj,
      BitVec.toNat_ofNat]
    omega

/-- Narrowing an int16 from the int32 that holds it gives it back (10_state.md R27). -/
@[simp] theorem setWidth_signExtend (x : Sample) : (x.signExtend 32).setWidth 16 = x := by
  apply BitVec.eq_of_toInt_eq
  rw [← BitVec.signExtend_eq_setWidth_of_le _ (by norm_num), BitVec.toInt_signExtend_eq_toInt_bmod_of_le _ (by norm_num),
    toInt_signExtend, BitVec.toInt_bmod_cancel]

/-- A predictor in int16 is the extension of a sample. -/
theorem exists_signExtend {p : BitVec 32} (hlo : -32768 ≤ p.toInt) (hhi : p.toInt ≤ 32767) :
    ∃ x : Sample, p = x.signExtend 32 := by
  refine ⟨BitVec.ofInt 16 p.toInt, BitVec.eq_of_toInt_eq ?_⟩
  rw [toInt_signExtend, BitVec.toInt_ofInt_eq_self] <;> norm_num <;> omega

/-! ### The header (R101, R104) -/

/-- `header_decode` fails only by its step index. -/
theorem headerDecode_eq_map (policy : StepIndexPolicy) (B : List Byte) :
    headerDecode policy B = (fun idx => ⟨(BitVec.ofNat 16 (memRead B 0 2)).signExtend 32, idx⟩) <$>
      headerIndex policy (BitVec.ofNat 8 (memRead B 2 1)).toInt := by
  rw [headerDecode]
  cases headerIndex policy (BitVec.ofNat 8 (memRead B 2 1)).toInt <;> rfl

/-- `header_decode` reads bytes 0 to 2 and no other. -/
theorem headerDecode_cons (policy : StepIndexPolicy) (b0 b1 b2 : Byte) (rest : List Byte) :
    headerDecode policy (b0 :: b1 :: b2 :: rest) =
      (fun idx => ⟨(BitVec.ofNat 16 (b0.toNat + 256 * b1.toNat)).signExtend 32, idx⟩) <$> headerIndex policy b2.toInt := by
  rw [headerDecode_eq_map]
  simp [memRead, slice, leNat]

/-- A legal step index is taken under either policy (R101). -/
theorem headerIndex_of_legal (policy : StepIndexPolicy) {raw : Int} (hlo : 0 ≤ raw) (hhi : raw ≤ 88) :
    headerIndex policy raw = .ok (BitVec.ofInt 16 raw) := by
  cases policy with
  | reject => exact if_neg (by omega)
  | clamp =>
    have hclamp : clampIdx raw = raw := by unfold clampIdx; omega
    rw [headerIndex, hclamp]

/-- A byte of at most 0x7F is read as itself, and one from 0x80 on as a negative number. -/
theorem byte_toInt (b : Byte) : b.toInt = if b.toNat ≤ 0x7F then (b.toNat : Int) else (b.toNat : Int) - 256 := by
  rw [BitVec.toInt_eq_toNat_cond]
  split_ifs <;> omega

theorem clampIdx_toNat (raw : Int) : ((BitVec.ofInt 16 (clampIdx raw)).toNat : Int) = clampIdx raw := by
  have h := clampIdx_bounds raw
  rw [BitVec.toNat_ofInt]
  omega

/-- Settles O23: under Clamp `header_decode` takes every index, clamped. -/
theorem clampPolicyClampsStepIndex : Obligations.ClampPolicyClampsStepIndex := by
  intro b0 b1 b2 b3 rest
  refine ⟨_, headerDecode_cons .clamp b0 b1 b2 (b3 :: rest), toInt_signExtend _, ?_⟩
  have hidx := clampIdx_toNat b2.toInt
  simp only [byte_toInt, clampIdx] at hidx ⊢
  split_ifs at hidx ⊢ <;> omega

/-- The header of a state whose predictor is a sample: the sample, the index's low byte, and 0 (R100). -/
theorem headerEncode_signExtend (x : Sample) (idx : BitVec 16) :
    headerEncode ⟨x.signExtend 32, idx⟩ = bytes16 x ++ [BitVec.ofNat 8 idx.toNat, 0] := by
  have hlow (start : Nat) (h : start + 8 ≤ 16) : (x.signExtend 32).extractLsb' start 8 = x.extractLsb' start 8 := by
    rw [← BitVec.extractLsb'_setWidth_of_le h, setWidth_signExtend]
  rw [headerEncode, hlow 0 (by norm_num), hlow 8 (by norm_num)]
  simp [bytes16_eq, BitVec.extractLsb', Nat.shiftRight_eq_div_pow]

/-- A header with a legal index is read back unchanged, under either policy (R104). -/
theorem headerDecode_headerEncode (policy : StepIndexPolicy) (x : Sample) {idx : BitVec 16} (hlo : 0 ≤ idx.toInt)
    (hhi : idx.toInt ≤ 88) (rest : List Byte) :
    headerDecode policy (headerEncode ⟨x.signExtend 32, idx⟩ ++ rest) = .ok ⟨x.signExtend 32, idx⟩ := by
  have hbyte : (BitVec.ofNat 8 idx.toNat).toInt = idx.toInt := by
    rw [BitVec.toInt_eq_toNat_of_lt (BitVec.toInt_pos_iff.mp hlo)] at hhi ⊢
    rw [byte_toInt, BitVec.toNat_ofNat]
    split_ifs <;> omega
  have hlayout : headerEncode ⟨x.signExtend 32, idx⟩ ++ rest = bytes16 x ++ BitVec.ofNat 8 idx.toNat :: 0 :: rest := by
    rw [headerEncode_signExtend, List.append_assoc]
    rfl
  rw [hlayout, headerDecode_eq_map, memRead_bytes16, memRead_behind_bytes16, BitVec.ofNat_toNat, BitVec.ofNat_toNat,
    BitVec.setWidth_eq, BitVec.setWidth_eq, hbyte, headerIndex_of_legal policy hlo hhi, BitVec.ofInt_toInt]
  rfl

/-- Settles O35: a legal predictor is the extension of a sample. -/
theorem headerRoundTrip : Obligations.HeaderRoundTrip := by
  rintro policy ⟨pred, idx⟩ rest ⟨hplo, hphi, hilo, hihi⟩
  obtain ⟨x, rfl⟩ := exists_signExtend hplo hphi
  exact headerDecode_headerEncode policy x hilo hihi rest

end Sys2Proof.Machine
end

section
/-! PROOFS. 41_frame_codec.md R105, R110: `decode_chunk` and DECODE_CHUNK. -/

namespace Sys2Proof.Machine

/-! ### `decode_chunk` (R105) -/

/-- A chunk of the right length whose header is read gives its leading sample and those of its packed bytes. -/
theorem decodeChunk_eq_ok {policy : StepIndexPolicy} {c : Cfg} {B : List Byte} {st : ChannelState}
    (hlen : B.length = chunkSize c) (hheader : headerDecode policy B = .ok st) :
    decodeChunk policy (geometry c) B = .ok (st.pred.setWidth 16 :: (expandBytes st (B.drop 4)).2) := by
  simp only [decodeChunk, geometry_chunkSize, hlen, ne_eq, not_true_eq_false, if_false, hheader]

/-- Settles O36: byte 3 is in no part of the chunk that `decode_chunk` looks at: its length, bytes 0 to 2, and those from 4 on. -/
theorem reservedHeaderByteIsIgnored : Obligations.ReservedHeaderByteIsIgnored := by
  intro policy c b0 b1 b2 b3 b3' rest
  simp only [decodeChunk, List.length_cons, headerDecode_cons, List.drop_succ_cons]

/-- D in terms of the chunk's size (42_interleave.md R120). -/
theorem chunkSamples_eq (c : Cfg) : chunkSamples c = 2 * (chunkSize c - 4) + 1 := rfl

theorem chunkSize_eq (c : Cfg) : chunkSize c = if c.rate then 512 else 1024 := rfl

theorem four_le_chunkSize (c : Cfg) : 4 ≤ chunkSize c := by
  rw [chunkSize_eq]
  split <;> norm_num

/-- A chunk decodes to D samples (R107). -/
theorem decodeChunk_length {policy : StepIndexPolicy} {c : Cfg} {B : List Byte} {samples : List Sample}
    (h : decodeChunk policy (geometry c) B = .ok samples) : samples.length = chunkSamples c := by
  unfold decodeChunk at h
  split at h
  · cases h
  · rename_i hlen
    split at h
    · cases h
    · cases h
      rw [List.length_cons, expandBytes_length, List.length_drop, not_not.mp hlen]
      rfl

/-- Clamp takes every header; Reject takes one whose index byte is at most 0x58 (R101). -/
theorem headerDecode_accepts {policy : StepIndexPolicy} {B : List Byte} (h : policy = .clamp ∨ memRead B 2 1 ≤ 0x58) :
    ∃ idx, headerDecode policy B = .ok ⟨(BitVec.ofNat 16 (memRead B 0 2)).signExtend 32, idx⟩ := by
  obtain ⟨idx, hidx⟩ : ∃ idx, headerIndex policy (BitVec.ofNat 8 (memRead B 2 1)).toInt = .ok idx := by
    rcases h with rfl | h
    · exact ⟨_, rfl⟩
    · have hbyte : (BitVec.ofNat 8 (memRead B 2 1)).toInt = memRead B 2 1 := by
        rw [byte_toInt, BitVec.toNat_ofNat]
        split_ifs <;> omega
      exact ⟨_, headerIndex_of_legal policy (by omega) (by omega)⟩
  exact ⟨idx, by rw [headerDecode_eq_map, hidx]; rfl⟩

/-! ### DECODE_CHUNK (R110) -/

theorem exec_decodeChunk {s : State} {samples : List Sample} (hvalid : s.cfg.valid = true)
    (hlen : s.inp.length = chunkSize s.cfg)
    (hdec : decodeChunk s.params.stepIndexPolicy (geometry s.cfg) s.inp = .ok samples) :
    exec .decodeChunk s = .next (succeeded (bytesOf samples) s) := by
  apply exec_eq_succeeded
  simp [effect, decodeChunkEffect, configured_valid hvalid, hlen, hdec]

/-- Settles O38: the policy takes the header, whose sample leads OUT. -/
theorem decodeChunkCompletes : Obligations.DecodeChunkCompletes := by
  intro s hvalid hlen htake
  rw [← chunkSize_eq] at hlen
  have hsize := four_le_chunkSize s.cfg
  obtain ⟨x, rest, hinp⟩ := exists_bytes16_append (B := s.inp) (by omega)
  obtain ⟨idx, hheader⟩ := headerDecode_accepts htake
  have hdec := decodeChunk_eq_ok hlen hheader
  have hlead : (BitVec.ofNat 16 (memRead s.inp 0 2)) = x := by
    rw [hinp, memRead_bytes16, BitVec.ofNat_toNat, BitVec.setWidth_eq]
  rw [hlead, setWidth_signExtend] at hdec
  refine ⟨_, exec_decodeChunk hvalid hlen hdec, hdec, ?_, ?_⟩
  · rw [← two_mul_chunkSamples, ← decodeChunk_length hdec]
    exact bytesOf_length _
  · calc (bytesOf (x :: _)).take 2 = bytes16 x := List.take_left' (bytes16_length x)
      _ = s.inp.take 2 := by rw [hinp, List.take_left' (bytes16_length x)]

end Sys2Proof.Machine
end

section
/-! PROOFS. 41_frame_codec.md R106, R108, R111, R112: `encode_chunk`, what the decoder makes of an encoded chunk, and
ENCODE_CHUNK. -/

namespace Sys2Proof.Machine

/-! ### `encode_chunk` (R106) -/

theorem compressPairs_cons (st : ChannelState) (x1 x2 : Sample) (xs : List Sample) :
    compressPairs st (x1 :: x2 :: xs) =
      ((compressPairs (compressSample (compressSample st x1).1 x2).1 xs).1,
        pack (compressSample st x1).2 (compressSample (compressSample st x1).1 x2).2 ::
          (compressPairs (compressSample (compressSample st x1).1 x2).1 xs).2) := rfl

/-- The window's first sample replaces the slot's predictor, and goes with the slot's index into the header (R112). -/
theorem encodeWindow_cons (st : ChannelState) (x0 : Sample) (xs : List Sample) :
    encodeWindow st (x0 :: xs) =
      ((compressPairs ⟨x0.signExtend 32, st.idx⟩ xs).1,
        headerEncode ⟨x0.signExtend 32, st.idx⟩ ++ (compressPairs ⟨x0.signExtend 32, st.idx⟩ xs).2) := rfl

theorem encodeChunk_of_length {c : Cfg} {S : List Sample} (hlen : S.length = chunkSamples c) (st : ChannelState) :
    encodeChunk (geometry c) st S = .ok (encodeWindow st S) :=
  if_neg (not_not.mpr hlen)

/-- D samples encode to a chunk (R107). -/
theorem encodeWindow_length {c : Cfg} {S : List Sample} (hlen : S.length = chunkSamples c) (st : ChannelState) :
    (encodeWindow st S).2.length = chunkSize c := by
  match S with
  | x0 :: xs =>
    have hxs : xs.length = 2 * (chunkSize c - 4) := Nat.succ.inj hlen
    rw [encodeWindow_cons, List.length_append, headerEncode_length, compressPairs_length _ _ _ hxs,
      Nat.add_sub_cancel' (four_le_chunkSize c)]

/-! ### The encoder seen from the decoder (R108) -/

/-- The packed bytes hold the codes that the encoder gave, in order. -/
theorem nibblesOf_compressPairs : ∀ (st : ChannelState) (xs : List Sample), 2 ∣ xs.length →
    nibblesOf (compressPairs st xs).2 = compressAll st xs
  | _, [], _ => rfl
  | _, [_], h => by norm_num at h
  | st, x1 :: x2 :: xs, h => by
    have ih := nibblesOf_compressPairs (compressSample (compressSample st x1).1 x2).1 xs ((Nat.dvd_add_left dvd_rfl).mp h)
    rw [nibblesOf] at ih
    rw [compressPairs_cons, nibblesOf, List.flatMap_cons, ih, lowNibble_pack, highNibble_pack]
    rfl

/-- The sample expanded is the new predictor, narrowed (40_sample_codec.md R83). -/
theorem expandNibble_sample (st : ChannelState) (n : Nibble) :
    (expandNibble st n).2 = (expandNibble st n).1.pred.setWidth 16 := by
  have hext : (expandNibble st n).1.pred = (expandNibble st n).2.signExtend 32 := by
    apply BitVec.eq_of_toInt_eq
    rw [toInt_signExtend, expandNibble_sample_toInt]
  rw [hext, setWidth_signExtend]

/-- Expanding a byte of two of the encoder's nibbles moves the decoder's state as the encoder's moved (40_sample_codec.md R87). -/
theorem expandByte_pack (st : ChannelState) (x1 x2 : Sample) :
    expandByte st (pack (compressSample st x1).2 (compressSample (compressSample st x1).1 x2).2) =
      ((compressSample (compressSample st x1).1 x2).1,
        [(compressSample st x1).1.pred.setWidth 16, (compressSample (compressSample st x1).1 x2).1.pred.setWidth 16]) := by
  simp only [expandByte, lowNibble_pack, highNibble_pack, expandNibble_sample, expandNibble_compressSample]

/-- Expanding the encoder's bytes retraces the encoder: the same last state, by way of its predictors. -/
theorem expandBytes_compressPairs : ∀ (st : ChannelState) (xs : List Sample), 2 ∣ xs.length →
    expandBytes st (compressPairs st xs).2 = ((compressPairs st xs).1, reconstructions st xs)
  | _, [], _ => rfl
  | _, [_], h => by norm_num at h
  | st, x1 :: x2 :: xs, h => by
    have ih := expandBytes_compressPairs (compressSample (compressSample st x1).1 x2).1 xs ((Nat.dvd_add_left dvd_rfl).mp h)
    rw [expandBytes] at ih
    rw [compressPairs_cons, expandBytes, emitOver_cons, expandByte_pack, ih]
    rfl

/-- Settles O41: the header is read back, and from its state the packed bytes retrace the encoder. -/
theorem encodeThenDecodeChunk : Obligations.EncodeThenDecodeChunk := by
  intro policy c st x0 xs hlo hhi hlen start
  have heven : 2 ∣ xs.length := ⟨chunkSize c - 4, Nat.succ.inj hlen⟩
  have hheader : headerDecode policy (encodeWindow st (x0 :: xs)).2 = .ok start :=
    headerDecode_headerEncode policy x0 hlo hhi _
  have hbytes : (encodeWindow st (x0 :: xs)).2.drop 4 = (compressPairs start xs).2 :=
    List.drop_left' (headerEncode_length start)
  have hexpand : expandBytes start (compressPairs start xs).2 = ((encodeWindow st (x0 :: xs)).1, reconstructions start xs) :=
    expandBytes_compressPairs start xs heven
  refine ⟨(encodeWindow st (x0 :: xs)).1, (encodeWindow st (x0 :: xs)).2, encodeChunk_of_length hlen st, hheader, ?_, ?_, ?_⟩
  · rw [hbytes, nibblesOf_compressPairs start xs heven]
  · rw [decodeChunk_eq_ok (encodeWindow_length hlen st) hheader, hbytes, hexpand, setWidth_signExtend]
  · rw [hbytes, hexpand]

/-! ### ENCODE_CHUNK (R111) -/

@[simp] theorem samplesOf_bytes16_append (x : Sample) (rest : List Byte) :
    samplesOf (bytes16 x ++ rest) = x :: samplesOf rest := by
  have hx : leNat (leBytes 2 x.toNat) = x.toNat := (leNat_leBytes 2 x.toNat).trans (Nat.mod_eq_of_lt x.isLt)
  calc samplesOf (bytes16 x ++ rest) = BitVec.ofNat 16 (leNat (leBytes 2 x.toNat)) :: samplesOf rest := rfl
    _ = x :: samplesOf rest := by rw [hx, BitVec.ofNat_toNat, BitVec.setWidth_eq]

theorem samplesOf_length : ∀ B : List Byte, (samplesOf B).length = B.length / 2
  | [] => rfl
  | [_] => by simp [samplesOf]
  | _ :: _ :: bs => by rw [samplesOf, List.length_cons, samplesOf_length bs, List.length_cons, List.length_cons]; omega

/-- A payload of 2·D bytes holds D samples. -/
theorem samplesOf_inp_length {s : State} (hlen : s.inp.length = 2 * chunkSamples s.cfg) :
    (samplesOf s.inp).length = chunkSamples s.cfg := by
  rw [samplesOf_length, hlen, Nat.mul_div_cancel_left _ two_pos]

/-- On a payload of 2·D bytes, the slot and OUT are what `encode_chunk` gives. -/
theorem exec_encodeChunk {s : State} (hvalid : s.cfg.valid = true) (hlen : s.inp.length = 2 * chunkSamples s.cfg)
    (id : SlotId) :
    exec (.encodeChunk id.stream id.chan) s = .next (succeeded (encodeWindow (readSlot s.slots id) (samplesOf s.inp)).2
      { s with slots := writeSlot s.slots id (encodeWindow (readSlot s.slots id) (samplesOf s.inp)).1 }) := by
  apply exec_eq_succeeded
  simp [effect, encodeChunkEffect, configured_valid hvalid, hlen, encodeChunk_of_length (samplesOf_inp_length hlen)]

/-- A payload of 2·D bytes holds a first sample. -/
theorem exists_first_sample {s : State} (hlen : s.inp.length = 2 * chunkSamples s.cfg) :
    ∃ x rest, s.inp = bytes16 x ++ rest :=
  exists_bytes16_append (by rw [hlen, chunkSamples_eq]; omega)

/-- Settles O39: the chunk written begins with the header of the payload's first sample and the slot's index. -/
theorem encodeChunkCompletes : Obligations.EncodeChunkCompletes := by
  intro s id hvalid hlen
  rw [← two_mul_chunkSamples] at hlen
  have hsamples := samplesOf_inp_length hlen
  refine ⟨_, _, exec_encodeChunk hvalid hlen id, ?_, encodeWindow_length hsamples _, ?_, fun j hj => ?_⟩
  · rw [readSlot_writeSlot_same, encodeChunk_of_length hsamples]
  · obtain ⟨x, rest, hinp⟩ := exists_first_sample hlen
    rw [hinp, samplesOf_bytes16_append, encodeWindow_cons, List.take_left' (headerEncode_length _),
      List.take_left' (bytes16_length x), headerEncode_signExtend]
  · exact readSlot_writeSlot_other _ _ hj.symm

/-- Settles O40: the first sample takes the predictor's place before it is read, and the slot is written over whole. -/
theorem encodeChunkIgnoresTheOldPredictor : Obligations.EncodeChunkIgnoresTheOldPredictor := by
  intro s id p hvalid hlen
  rw [← two_mul_chunkSamples] at hlen
  obtain ⟨x, rest, hinp⟩ := exists_first_sample hlen
  have hother := exec_encodeChunk (s := withSlots (writeSlot s.slots id { readSlot s.slots id with pred := p }) s) hvalid hlen id
  rw [exec_encodeChunk hvalid hlen id]
  refine hother.trans ?_
  simp only [withSlots, hinp, samplesOf_bytes16_append, encodeWindow_cons, readSlot_writeSlot_same, writeSlot_writeSlot]

end Sys2Proof.Machine
end

section
/-! PROOFS. 42_interleave.md: what the interleaving engine lays out in pieces of one length (a container in chunks, a stream in
blocks, a PCM in sample frames) is found again at the piece's number times that length. -/

namespace Sys2Proof.Machine

/-! ### Mixed-radix places -/

/-- Place (a, b) of a grid of m rows of n is a · n + b, and lies before m · n. -/
theorem place_lt {m n a b : Nat} (ha : a < m) (hb : b < n) : a * n + b < m * n := by
  rw [Nat.mul_comm a]
  exact Nat.mul_add_lt_mul_of_lt_of_lt ha hb

theorem place_div {n b : Nat} (a : Nat) (hb : b < n) : (a * n + b) / n = a := by
  rw [Nat.add_comm, Nat.add_mul_div_right _ _ (Nat.zero_lt_of_lt hb), Nat.div_eq_of_lt hb, Nat.zero_add]

/-- The place gives its row and column back. -/
theorem place_inj {n a b a' b' : Nat} (hb : b < n) (hb' : b' < n) (h : a * n + b = a' * n + b') : a = a' ∧ b = b' := by
  have ha : a = a' := by rw [← place_div a hb, h, place_div a' hb']
  subst ha
  exact ⟨rfl, Nat.add_left_cancel h⟩

/-! ### Pieces of one length -/

section Pieces

variable {α β : Type} {f : α → List β} {N : Nat} {as : List α} (hf : ∀ a ∈ as, (f a).length = N)
include hf

theorem length_flatMap_pieces : (as.flatMap f).length = as.length * N := by
  rw [List.length_flatMap, List.map_congr_left hf, List.map_const', List.sum_replicate_nat]

/-- Piece n is the N items from n · N on. -/
theorem take_drop_flatMap_pieces {n : Nat} {a : α} (ha : as[n]? = some a) :
    ((as.flatMap f).drop (n * N)).take N = f a := by
  induction as generalizing n with
  | nil => simp at ha
  | cons a' as ih =>
    have hlen : (f a').length = N := hf a' List.mem_cons_self
    rw [List.flatMap_cons]
    cases n with
    | zero =>
      obtain rfl := Option.some.inj ha
      rw [Nat.zero_mul, List.drop_zero, List.take_left' hlen]
    | succ n =>
      rw [Nat.succ_mul, Nat.add_comm, ← List.drop_drop, List.drop_left' hlen]
      exact ih (fun a ha => hf a (List.mem_cons_of_mem a' ha)) ha

/-- Item r of piece n. -/
theorem getElem?_flatMap_pieces {n r : Nat} {a : α} (ha : as[n]? = some a) (hr : r < N) :
    (as.flatMap f)[n * N + r]? = (f a)[r]? := by
  rw [← take_drop_flatMap_pieces hf ha, List.getElem?_take_of_lt hr, List.getElem?_drop]

end Pieces

/-! ### Reading inside what was read (20_memory.md R40) -/

theorem slice_slice {off a len n : Nat} (B : List Byte) (h : a + n ≤ len) :
    slice (slice B off len) a n = slice B (off + a) n := by
  rw [slice, slice, slice, List.drop_take, List.drop_drop, List.take_take, Nat.min_eq_left (by omega)]

theorem slice_length {B : List Byte} {off len : Nat} (h : off + len ≤ B.length) : (slice B off len).length = len := by
  rw [slice, List.length_take, List.length_drop]
  omega

end Sys2Proof.Machine
end

section
/-! PROOFS. 42_interleave.md R120 to R124, R132, R137 to R140, R143: the geometry, the chunk-to-byte layout, the round-robin
dispatcher, and the three commands that set or report them. -/

namespace Sys2Proof.Machine

/-! ### CONFIGURE, GEOMETRY and LOCATE -/

/-- Settles O20: the payload's length is right, and SCOUNT's range is the next check. -/
theorem configureRejectsStreamCounts : Obligations.ConfigureRejectsStreamCounts := by
  intro s mono rate n hinp hn
  have hrange : (decide (1 ≤ n) && decide (n ≤ 6)) = false := by
    rw [← Bool.decide_and, decide_eq_false_iff_not]
    omega
  have hraise : effect (.configure mono rate n) s = .error .configError := by
    simp only [effect, configureEffect, payloadIs_of_length (List.length_eq_zero_iff.mpr hinp), hrange, require_false,
      except_ok_bind, except_error_bind]
  exact exec_eq_raised hraise

/-- Settles O42: both checks pass, and the rule writes CFG whole. -/
theorem configureSetsTheConfiguration : Obligations.ConfigureSetsTheConfiguration := by
  intro s mono rate n hinp h1 h6
  have hok : effect (.configure mono rate n) s =
      .ok ({ s with cfg := { valid := true, mono := mono, rate := rate, scount := BitVec.ofNat 3 n } }, []) := by
    simp only [effect, configureEffect, payloadIs_of_length (List.length_eq_zero_iff.mpr hinp), h1, h6, decide_true,
      Bool.and_self, require_true, except_ok_bind, except_pure]
  exact exec_eq_succeeded hok

theorem exec_geometry {s : State} (hinp : s.inp = []) (hvalid : s.cfg.valid = true) :
    exec .geometry s = .next (succeeded ((geometryWords (geometry s.cfg)).flatMap (leBytes 4)) s) := by
  apply exec_eq_succeeded
  simp only [effect, geometryEffect, payloadIs_of_length (List.length_eq_zero_iff.mpr hinp), configured_valid hvalid,
    except_ok_bind, except_pure]

/-- The ten words by MONO and RATE (R121). -/
theorem geometryWords_eq (c : Cfg) : geometryWords (geometry c) =
    [if c.rate then 22050 else 44100, if c.mono then 1 else 2, if c.rate then 512 else 1024, 65536,
      if c.rate then 128 else 64, if c.rate then 508 else 1020, if c.rate then 1017 else 2041,
      if c.rate then 130176 else 130624, if c.mono then 65536 else 131072, c.scount.toNat] := by
  have hcc : channelCount c * 65536 = if c.mono then 65536 else 131072 := by
    unfold channelCount
    cases c.mono <;> rfl
  simp only [geometryWords, geometry, frequency, channelCount, payloadBytes, chunkSamples, blockSamples, blockBytes,
    streamCount, interleaveSize, chunksPerInterleave_eq, chunkSize_eq] at hcc ⊢
  rw [hcc]
  cases c.rate <;> rfl

/-- Settles O43: the words are those of R121's table, one row for each value of MONO and RATE. -/
theorem geometryReportsTheTable : Obligations.GeometryReportsTheTable := by
  intro s hinp hvalid
  rw [exec_geometry hinp hvalid, geometryWords_eq]
  cases s.cfg.mono <;> cases s.cfg.rate <;> rfl

theorem exec_locate {s : State} {c k : Nat} (hlen : s.inp.length = 4) (hvalid : s.cfg.valid = true)
    (hc : c < channelCount s.cfg) (hk : k < chunksPerInterleave s.cfg) :
    exec (.locate c k) s = .next (succeeded
      (leBytes 4 (blockOwner (geometry s.cfg) (memRead s.inp 0 4)) ++ leBytes 4 (blockSeq (geometry s.cfg) (memRead s.inp 0 4)) ++
        leBytes 8 (chunkOffset (geometry s.cfg) (memRead s.inp 0 4) c k)) s) := by
  apply exec_eq_succeeded
  simp only [effect, locateEffect, payloadIs_of_length hlen, configured_valid hvalid, except_ok_bind, except_pure,
    geometry_channelCount, geometry_chunksPerInterleave, hc, hk, decide_true, Bool.and_self, require_true]

/-- Settles O44: the payload is one number, and the dispatcher and the layout are R124's and R123's. -/
theorem locateReportsTheChunk : Obligations.LocateReportsTheChunk := by
  intro s c k hlen hvalid _ hc hk
  have hi : memRead s.inp 0 4 = leNat s.inp := by rw [memRead, slice, List.drop_zero, List.take_of_length_le hlen.le]
  rw [exec_locate hlen hvalid hc (by rwa [chunksPerInterleave_eq]), hi]
  rfl

/-! ### The chunks of a container, numbered in the order of the walk (R123, R133) -/

/-- How many chunks stand before chunk k of channel c of block i. -/
def chunkNumber (g : Geometry) (i c k : Nat) : Nat := (i * g.channelCount + c) * g.chunksPerInterleave + k

/-- A segment of 65536 bytes is whole chunks (R120). -/
theorem chunksPerInterleave_mul_chunkSize (c : Cfg) : chunksPerInterleave c * chunkSize c = 65536 := by
  rw [chunksPerInterleave_eq, chunkSize_eq]
  cases c.rate <;> rfl

theorem blockBytes_eq (c : Cfg) : blockBytes c = channelCount c * chunksPerInterleave c * chunkSize c := by
  rw [Nat.mul_assoc, chunksPerInterleave_mul_chunkSize]
  rfl

/-- The container is its chunks, one behind the other. -/
theorem chunkOffset_eq (cfg : Cfg) (i c k : Nat) :
    chunkOffset (geometry cfg) i c k = chunkNumber (geometry cfg) i c k * chunkSize cfg := by
  simp only [chunkOffset, chunkNumber, geometry_blockBytes, geometry_interleaveSize, geometry_channelCount,
    geometry_chunksPerInterleave, geometry_chunkSize, blockBytes_eq, ← chunksPerInterleave_mul_chunkSize cfg]
  ring

theorem chunkNumber_lt {g : Geometry} {n i c k : Nat} (hi : i < n) (hc : c < g.channelCount)
    (hk : k < g.chunksPerInterleave) : chunkNumber g i c k < n * g.channelCount * g.chunksPerInterleave :=
  place_lt (place_lt hi hc) hk

theorem chunkNumber_inj {g : Geometry} {i c k i' c' k' : Nat} (hc : c < g.channelCount) (hc' : c' < g.channelCount)
    (hk : k < g.chunksPerInterleave) (hk' : k' < g.chunksPerInterleave) (h : chunkNumber g i c k = chunkNumber g i' c' k') :
    (i, c, k) = (i', c', k') := by
  obtain ⟨hic, rfl⟩ := place_inj hk hk' h
  obtain ⟨rfl, rfl⟩ := place_inj hc hc' hic
  rfl

/-- Of pieces of one length, an earlier one ends before a later one begins. -/
theorem piece_end_le {a b : Nat} (h : a < b) (N : Nat) : a * N + N ≤ b * N := by
  rw [← Nat.succ_mul]
  exact Nat.mul_le_mul_right N h

/-- Every chunk lies inside its container. -/
theorem chunk_end_le {cfg : Cfg} {n i c k : Nat} (hi : i < n) (hc : c < channelCount cfg) (hk : k < chunksPerInterleave cfg) :
    chunkOffset (geometry cfg) i c k + chunkSize cfg ≤ n * blockBytes cfg := by
  rw [chunkOffset_eq, blockBytes_eq, ← Nat.mul_assoc, ← Nat.mul_assoc]
  exact piece_end_le (chunkNumber_lt hi hc hk) _

/-- Settles O45: different chunks have different numbers, and the one with the lower number ends first. -/
theorem chunksDoNotOverlap : Obligations.ChunksDoNotOverlap := by
  intro cfg n i c k i' c' k' hi _ hc hc' hk hk'
  refine ⟨chunk_end_le hi hc hk, fun hne => ?_⟩
  rw [chunkOffset_eq, chunkOffset_eq]
  rcases Nat.lt_or_gt_of_ne (mt (chunkNumber_inj (g := geometry cfg) hc hc' hk hk') hne) with hlt | hlt
  · exact .inl (piece_end_le hlt _)
  · exact .inr (piece_end_le hlt _)

/-! ### The blocks of one stream (R124, R143) -/

/-- How many of B blocks, dealt to S streams in turn, stream n gets (R143). -/
def ownedCount (S B n : Nat) : Nat := B / S + if n < B % S then 1 else 0

/-- Stream n's block j is among the first B blocks exactly when it is one of those counted. -/
theorem lt_ownedCount_iff {S B n j : Nat} (hn : n < S) : j < ownedCount S B n ↔ j * S + n < B := by
  have hB := Nat.div_add_mod' B S
  have hr := Nat.mod_lt B (Nat.zero_lt_of_lt hn)
  rw [ownedCount]
  rcases Nat.lt_trichotomy j (B / S) with hj | rfl | hj
  · have hmul := piece_end_le hj S
    exact iff_of_true (by omega) (by omega)
  · split <;> omega
  · have hmul := piece_end_le hj S
    exact iff_of_false (by split <;> omega) (by omega)

/-- The blocks of stream n: n, S + n, 2 · S + n, … -/
theorem filter_blockOwner {g : Geometry} {n : Nat} (hn : n < g.streamCount) (B : Nat) :
    (List.range B).filter (fun i => blockOwner g i = n) =
      (List.range (ownedCount g.streamCount B n)).map fun j => j * g.streamCount + n := by
  have hS := Nat.zero_lt_of_lt hn
  have hincreasing : (List.map (fun j => j * g.streamCount + n) (List.range (ownedCount g.streamCount B n))).Pairwise (· < ·) :=
    List.pairwise_lt_range.map _ fun a b hab => by
      have hmul := piece_end_le hab g.streamCount
      omega
  refine (List.pairwise_lt_range.filter _).eq_of_mem_iff hincreasing fun i => ?_
  simp only [List.mem_filter, List.mem_range, List.mem_map, decide_eq_true_eq, lt_ownedCount_iff hn]
  constructor
  · rintro ⟨hi, rfl⟩
    exact ⟨blockSeq g i, by rwa [blockSeq, blockOwner, Nat.div_add_mod'], Nat.div_add_mod' ..⟩
  · rintro ⟨j, hj, rfl⟩
    exact ⟨hj, Nat.mul_add_mod_of_lt hn⟩

/-- Settles O46: the stream's blocks are as many as are counted. -/
theorem blocksOwnedByAStream : Obligations.BlocksOwnedByAStream := by
  intro cfg B n hn
  rw [filter_blockOwner (g := geometry cfg) hn, List.length_map, List.length_range]
  rfl

/-! ### P_blocks (R132) -/

theorem foldl_max_le_iff (xs : List Nat) (a m : Nat) : xs.foldl max a ≤ m ↔ a ≤ m ∧ ∀ x ∈ xs, x ≤ m := by
  induction xs generalizing a with
  | nil => simp
  | cons x xs ih => rw [List.foldl_cons, ih, Nat.max_le, List.forall_mem_cons, and_assoc]

theorem blockSamples_pos (c : Cfg) : 0 < blockSamples c := by
  rw [blockSamples, chunksPerInterleave_eq, chunkSamples_eq]
  split <;> omega

/-- Settles O52: the division rounds up, and the maximum is the longest stream's. -/
theorem blockCountCoversTheLongestStream : Obligations.BlockCountCoversTheLongestStream := by
  intro cfg Ps n
  have hpos := blockSamples_pos cfg
  calc blocksPerStream (geometry cfg) Ps ≤ n
      ↔ (Ps.map (frameCount (geometry cfg))).foldl max 0 ≤ n * blockSamples cfg := by
        rw [blocksPerStream, geometry_blockSamples, Nat.div_le_iff_le_mul_add_pred hpos, Nat.mul_comm]
        omega
    _ ↔ ∀ P ∈ Ps, frameCount (geometry cfg) P ≤ n * blockSamples cfg := by
        rw [foldl_max_le_iff, List.forall_mem_map]
        simp

end Sys2Proof.Machine
end

section
/-! PROOFS. 42_interleave.md R126, R127: a PCM is its sample frames, one behind the other, and a frame is one sample of each
channel. Interleaving puts the samples at their places, deinterleaving takes them from there. -/

namespace Sys2Proof.Machine

/-! ### Samples and their bytes (20_memory.md R44) -/

/-- Sample n of a byte sequence is its bytes 2 · n and 2 · n + 1. -/
theorem slice_bytesOf {xs : List Sample} {n : Nat} {x : Sample} (hx : xs[n]? = some x) :
    slice (bytesOf xs) (2 * n) 2 = bytes16 x := by
  rw [Nat.mul_comm]
  exact take_drop_flatMap_pieces (fun x _ => bytes16_length x) hx

theorem memRead_bytesOf {xs : List Sample} {n : Nat} {x : Sample} (hx : xs[n]? = some x) :
    memRead (bytesOf xs) (2 * n) 2 = x.toNat := by
  rw [memRead, slice_bytesOf hx, bytes16, leNat_leBytes]
  exact Nat.mod_eq_of_lt x.isLt

@[simp] theorem samplesOf_bytesOf (xs : List Sample) : samplesOf (bytesOf xs) = xs := by
  induction xs with
  | nil => rfl
  | cons x xs ih => rw [bytesOf_cons, samplesOf_bytes16_append, ih]

/-- An even number of bytes is a sample sequence. -/
theorem exists_bytesOf {P : List Byte} {n : Nat} (h : P.length = 2 * n) : ∃ xs, P = bytesOf xs ∧ xs.length = n := by
  induction n generalizing P with
  | zero => exact ⟨[], List.length_eq_zero_iff.mp h, rfl⟩
  | succ n ih =>
    obtain ⟨x, rest, rfl⟩ := exists_bytes16_append (B := P) (by omega)
    rw [List.length_append, bytes16_length] at h
    obtain ⟨xs, rfl, rfl⟩ := ih (P := rest) (by omega)
    exact ⟨x :: xs, rfl, rfl⟩

/-! ### Interleaving (R126) -/

/-- Frame t is sample t of every channel, in order. -/
def sampleFrame {α : Type} (Xs : List (List α)) (t : Nat) : List α := Xs.flatMap fun X => (X.drop t).take 1

theorem interleaveSamples_eq {α : Type} (T : Nat) (Xs : List (List α)) :
    interleaveSamples T Xs = (List.range T).flatMap (sampleFrame Xs) := by
  induction T generalizing Xs with
  | zero => rfl
  | succ T ih =>
    rw [interleaveSamples, ih, List.range_succ_eq_map, List.flatMap_cons, List.flatMap_map]
    have htail : sampleFrame (Xs.map List.tail) = fun t => sampleFrame Xs (t + 1) := by
      funext t
      simp only [sampleFrame, List.flatMap_map, List.drop_tail]
    rw [htail]
    rfl

section Interleave

variable {α : Type} {T : Nat} {Xs : List (List α)} (hT : ∀ X ∈ Xs, X.length = T)
include hT

/-- Within its buffers' length, a frame takes one sample of each channel. -/
theorem sampleFrame_piece_length {t : Nat} (ht : t < T) : ∀ X ∈ Xs, ((X.drop t).take 1).length = 1 := fun X hX => by
  rw [List.length_take, List.length_drop, hT X hX]
  omega

theorem sampleFrame_length : ∀ t ∈ List.range T, (sampleFrame Xs t).length = Xs.length := fun t ht => by
  rw [sampleFrame, length_flatMap_pieces (sampleFrame_piece_length hT (List.mem_range.mp ht)), Nat.mul_one]

theorem interleaveSamples_length : (interleaveSamples T Xs).length = T * Xs.length := by
  rw [interleaveSamples_eq, length_flatMap_pieces (sampleFrame_length hT), List.length_range]

/-- Sample t of channel c stands at t · cc + c. -/
theorem getElem?_interleaveSamples {t c : Nat} {X : List α} (hX : Xs[c]? = some X) (ht : t < T) :
    (interleaveSamples T Xs)[t * Xs.length + c]? = X[t]? := by
  have hc : c < Xs.length := (List.getElem?_eq_some_iff.mp hX).1
  have hframe := getElem?_flatMap_pieces (r := 0) (sampleFrame_piece_length hT ht) hX Nat.zero_lt_one
  rw [interleaveSamples_eq, getElem?_flatMap_pieces (sampleFrame_length hT) (List.getElem?_range ht) hc, sampleFrame]
  rw [Nat.mul_one, Nat.add_zero, List.getElem?_take_of_lt Nat.zero_lt_one, List.getElem?_drop, Nat.add_zero] at hframe
  exact hframe

end Interleave

/-- Settles O47: a PCM is the frames' samples, two bytes each. -/
theorem pcmInterleavePlacesEverySample : Obligations.PcmInterleavePlacesEverySample := by
  intro T Xs hT
  refine ⟨by rw [bytesOf_length, interleaveSamples_length hT], fun t c X x hX hx => ?_⟩
  have ht : t < T := hT X (List.mem_of_getElem? hX) ▸ (List.getElem?_eq_some_iff.mp hx).1
  exact slice_bytesOf ((getElem?_interleaveSamples hT hX ht).trans hx)

/-! ### Deinterleaving (R127) -/

theorem everyNth_eq {α : Type} (cc T : Nat) (ys : List α) :
    everyNth cc T ys = (List.range T).flatMap fun t => (ys.drop (t * cc)).take 1 := by
  induction T generalizing ys with
  | zero => rfl
  | succ T ih =>
    rw [everyNth, ih, List.range_succ_eq_map, List.flatMap_cons, List.flatMap_map]
    simp only [List.drop_drop, Nat.succ_mul, Nat.zero_mul, List.drop_zero, Nat.add_comm cc]

section Deinterleave

variable {g : Geometry} {T c : Nat} {xs : List Sample} (hxs : xs.length = T * g.channelCount) (hc : c < g.channelCount)
include hxs hc

theorem frameCount_bytesOf : frameCount g (bytesOf xs) = T := by
  rw [frameCount, bytesOf_length, hxs, Nat.mul_left_comm,
    Nat.mul_div_cancel _ (Nat.mul_pos two_pos (Nat.zero_lt_of_lt hc))]

/-- In every frame the channel has its one sample. -/
theorem pcmChannel_piece_length :
    ∀ t ∈ List.range T, (((xs.drop c).drop (t * g.channelCount)).take 1).length = 1 := fun t ht => by
  have hlt := place_lt (List.mem_range.mp ht) hc
  rw [List.length_take, List.length_drop, List.length_drop, hxs]
  omega

theorem pcmChannel_length : (pcmChannel g (bytesOf xs) c).length = T := by
  rw [pcmChannel, frameCount_bytesOf hxs hc, samplesOf_bytesOf, everyNth_eq,
    length_flatMap_pieces (pcmChannel_piece_length hxs hc), List.length_range, Nat.mul_one]

/-- Sample t of channel c is taken from t · cc + c. -/
theorem getElem?_pcmChannel {t : Nat} (ht : t < T) :
    (pcmChannel g (bytesOf xs) c)[t]? = xs[t * g.channelCount + c]? := by
  have hpiece := getElem?_flatMap_pieces (pcmChannel_piece_length hxs hc) (List.getElem?_range ht) Nat.zero_lt_one
  rw [pcmChannel, frameCount_bytesOf hxs hc, samplesOf_bytesOf, everyNth_eq]
  rw [Nat.mul_one, Nat.add_zero, List.getElem?_take_of_lt Nat.zero_lt_one, List.getElem?_drop, List.getElem?_drop,
    Nat.add_zero, Nat.add_comm c] at hpiece
  exact hpiece

end Deinterleave

/-- The samples of a PCM of whole frames are those of its channels, interleaved. -/
theorem interleaveSamples_pcmChannel {g : Geometry} {T : Nat} {xs : List Sample} (hcc : 0 < g.channelCount)
    (hxs : xs.length = T * g.channelCount) :
    interleaveSamples T ((List.range g.channelCount).map (pcmChannel g (bytesOf xs))) = xs := by
  have hT : ∀ X ∈ (List.range g.channelCount).map (pcmChannel g (bytesOf xs)), X.length = T := by
    rw [List.forall_mem_map]
    exact fun c hc => pcmChannel_length hxs (List.mem_range.mp hc)
  have hlen : ((List.range g.channelCount).map (pcmChannel g (bytesOf xs))).length = g.channelCount := by simp
  refine List.ext_getElem? fun n => ?_
  by_cases hn : n < T * g.channelCount
  · have ht : n / g.channelCount < T := Nat.div_lt_of_lt_mul (by rwa [Nat.mul_comm])
    have hc : n % g.channelCount < g.channelCount := Nat.mod_lt n hcc
    have hX : ((List.range g.channelCount).map (pcmChannel g (bytesOf xs)))[n % g.channelCount]? =
        some (pcmChannel g (bytesOf xs) (n % g.channelCount)) := by
      rw [List.getElem?_map, List.getElem?_range hc]
      rfl
    have hplace := (getElem?_interleaveSamples hT hX ht).trans (getElem?_pcmChannel hxs hc ht)
    rwa [hlen, Nat.div_add_mod'] at hplace
  · rw [List.getElem?_eq_none (by rw [interleaveSamples_length hT, hlen]; omega), List.getElem?_eq_none (by omega)]

theorem channelCount_pos (c : Cfg) : 0 < channelCount c := by
  unfold channelCount
  split <;> norm_num

/-- A PCM of T whole frames is T · cc samples. -/
theorem exists_bytesOf_frames {cfg : Cfg} {P : List Byte} (h : P.length % (2 * channelCount cfg) = 0) :
    ∃ xs T, P = bytesOf xs ∧ P.length / (2 * channelCount cfg) = T ∧ xs.length = T * channelCount cfg := by
  obtain ⟨xs, hbytes, hxs⟩ := exists_bytesOf (P := P) (n := P.length / (2 * channelCount cfg) * channelCount cfg)
    (by rw [← Nat.mul_assoc, Nat.mul_right_comm, Nat.mul_div_cancel' (Nat.dvd_of_mod_eq_zero h)])
  exact ⟨xs, _, hbytes, rfl, hxs⟩

/-- Settles O48: the PCM is T · cc samples, and frame t's sample of channel c is number t · cc + c. -/
theorem pcmDeinterleaveIsInverse : Obligations.PcmDeinterleaveIsInverse := by
  intro cfg P hP
  obtain ⟨xs, T, rfl, hT, hxs⟩ := exists_bytesOf_frames hP
  refine ⟨fun c hc => ?_, fun c t hc ht => ?_, ?_⟩
  · rw [hT]
    exact pcmChannel_length hxs hc
  · rw [hT] at ht
    obtain ⟨x, hx⟩ : ∃ x, xs[t * channelCount cfg + c]? = some x := ⟨_, List.getElem?_eq_getElem (hxs ▸ place_lt ht hc)⟩
    rw [memRead_bytesOf hx, BitVec.ofNat_toNat, BitVec.setWidth_eq]
    exact (getElem?_pcmChannel hxs hc ht).trans hx
  · rw [frameCount_bytesOf hxs (channelCount_pos cfg)]
    exact congrArg bytesOf (interleaveSamples_pcmChannel (g := geometry cfg) (channelCount_pos cfg) hxs)

end Sys2Proof.Machine
end

section
/-! PROOFS. 42_interleave.md R124, R125, R128, R130, R131, R141: the decode direction. A chunk's samples stand at their places in its
channel's buffer, the buffers interleaved are the block, and a stream's PCM is its own blocks in order. -/

namespace Sys2Proof.Machine

/-! ### Loops whose turns may raise -/

/-- A loop each of whose turns succeeds succeeds. -/
theorem tryMap_succeeds {α β : Type} {f : α → Except ErrKind β} {as : List α} (h : ∀ a ∈ as, ∃ b, f a = .ok b) :
    ∃ bs, tryMap f as = .ok bs := by
  induction as with
  | nil => exact ⟨[], rfl⟩
  | cons a as ih =>
    obtain ⟨b, hb⟩ := h a List.mem_cons_self
    obtain ⟨bs, hbs⟩ := ih fun a' ha' => h a' (List.mem_cons_of_mem a ha')
    exact ⟨b :: bs, (tryMap_cons f a as).mpr ⟨b, bs, hb, hbs, rfl⟩⟩

/-- Over 0, 1, …, N - 1, result n is that of turn n. -/
theorem tryMap_range {β : Type} {f : Nat → Except ErrKind β} {N : Nat} {bs : List β}
    (h : tryMap f (List.range N) = .ok bs) {n : Nat} (hn : n < N) : ∃ b, bs[n]? = some b ∧ f n = .ok b :=
  tryMap_getElem h (List.getElem?_range hn)

/-- Every result is some turn's. -/
theorem tryMap_mem {α β : Type} {f : α → Except ErrKind β} {as : List α} {bs : List β} (h : tryMap f as = .ok bs) {b : β}
    (hb : b ∈ bs) : ∃ a ∈ as, f a = .ok b := by
  obtain ⟨n, hn, rfl⟩ := List.mem_iff_getElem.mp hb
  have hn' : n < as.length := tryMap_length h ▸ hn
  obtain ⟨b', hb', hf⟩ := tryMap_getElem h (List.getElem?_eq_getElem hn')
  rw [List.getElem?_eq_getElem hn] at hb'
  exact ⟨as[n], List.getElem_mem hn', Option.some.inj hb' ▸ hf⟩

/-! ### One channel segment (R128) -/

theorem decodeSegment_ok {policy : StepIndexPolicy} {g : Geometry} {C : List Byte} {i c : Nat} {X : List Sample} :
    decodeSegment policy g C i c = .ok X ↔
      ∃ chunks, tryMap (fun k => decodeChunk policy g (containerChunk g C i c k)) (List.range g.chunksPerInterleave) = .ok chunks ∧
        chunks.flatten = X := by
  have hbind : decodeSegment policy g C i c =
      tryMap (fun k => decodeChunk policy g (containerChunk g C i c k)) (List.range g.chunksPerInterleave) >>=
        fun chunks => .ok chunks.flatten := by
    rw [decodeSegment]
    cases tryMap (fun k => decodeChunk policy g (containerChunk g C i c k)) (List.range g.chunksPerInterleave) <;> rfl
  simp only [hbind, except_bind_ok, Except.ok.injEq]

section Segment

variable {policy : StepIndexPolicy} {cfg : Cfg} {C : List Byte} {i c : Nat} {chunks : List (List Sample)}
  (h : tryMap (fun k => decodeChunk policy (geometry cfg) (containerChunk (geometry cfg) C i c k))
    (List.range (chunksPerInterleave cfg)) = .ok chunks)
include h

theorem length_of_decoded_chunk : ∀ samples ∈ chunks, samples.length = chunkSamples cfg := fun samples hs => by
  obtain ⟨k, -, hk⟩ := tryMap_mem h hs
  exact decodeChunk_length hk

theorem flatten_chunks_length : chunks.flatten.length = blockSamples cfg := by
  rw [← List.flatMap_id, length_flatMap_pieces (f := id) (length_of_decoded_chunk h), tryMap_length h, List.length_range]
  rfl

/-- Sample r of chunk k stands at k · D + r. -/
theorem getElem?_flatten_chunks {k : Nat} (hk : k < chunksPerInterleave cfg) :
    ∃ samples, decodeChunk policy (geometry cfg) (containerChunk (geometry cfg) C i c k) = .ok samples ∧
      ∀ r, r < chunkSamples cfg → chunks.flatten[k * chunkSamples cfg + r]? = samples[r]? := by
  obtain ⟨samples, hget, hdec⟩ := tryMap_range h hk
  refine ⟨samples, hdec, fun r hr => ?_⟩
  rw [← List.flatMap_id]
  exact getElem?_flatMap_pieces (length_of_decoded_chunk h) hget hr

end Segment

/-! ### One block (R128) -/

theorem decodeBlock_ok {policy : StepIndexPolicy} {g : Geometry} {C b : List Byte} {i : Nat} :
    decodeBlock policy g C i = .ok b ↔
      ∃ Xs, tryMap (decodeSegment policy g C i) (List.range g.channelCount) = .ok Xs ∧
        bytesOf (interleaveSamples g.blockSamples Xs) = b := by
  have hbind : decodeBlock policy g C i = tryMap (decodeSegment policy g C i) (List.range g.channelCount) >>=
      fun Xs => .ok (bytesOf (interleaveSamples g.blockSamples Xs)) := by
    rw [decodeBlock]
    cases tryMap (decodeSegment policy g C i) (List.range g.channelCount) <;> rfl
  simp only [hbind, except_bind_ok, Except.ok.injEq]

/-- A block's channel buffers: one for each channel, of block_samples samples each. -/
theorem decodedSegments_shape {policy : StepIndexPolicy} {cfg : Cfg} {C : List Byte} {i : Nat} {Xs : List (List Sample)}
    (h : tryMap (decodeSegment policy (geometry cfg) C i) (List.range (channelCount cfg)) = .ok Xs) :
    Xs.length = channelCount cfg ∧ ∀ X ∈ Xs, X.length = blockSamples cfg := by
  refine ⟨by rw [tryMap_length h, List.length_range], fun X hX => ?_⟩
  obtain ⟨c, -, hc⟩ := tryMap_mem h hX
  obtain ⟨chunks, hchunks, rfl⟩ := decodeSegment_ok.mp hc
  exact flatten_chunks_length hchunks

/-- The bytes of a decoded block (R128). -/
def blockPcmBytes (cfg : Cfg) : Nat := blockSamples cfg * channelCount cfg * 2

theorem decodeBlock_length {policy : StepIndexPolicy} {cfg : Cfg} {C b : List Byte} {i : Nat}
    (h : decodeBlock policy (geometry cfg) C i = .ok b) : b.length = blockPcmBytes cfg := by
  obtain ⟨Xs, hXs, rfl⟩ := decodeBlock_ok.mp h
  obtain ⟨hcc, hlen⟩ := decodedSegments_shape hXs
  have hpcm := (pcmInterleavePlacesEverySample _ _ hlen).1
  rw [hcc, Nat.mul_comm] at hpcm
  exact hpcm

theorem decodedBlocks_length {policy : StepIndexPolicy} {cfg : Cfg} {C : List Byte} {N : Nat} {blocks : List (List Byte)}
    (h : tryMap (decodeBlock policy (geometry cfg) C) (List.range N) = .ok blocks) :
    ∀ b ∈ blocks, b.length = blockPcmBytes cfg := fun b hb => by
  obtain ⟨i, -, hi⟩ := tryMap_mem h hb
  exact decodeBlock_length hi

/-- Every sample of a decoded block is its chunk's. -/
theorem slice_decodeBlock {policy : StepIndexPolicy} {cfg : Cfg} {C b : List Byte} {i c k : Nat}
    (h : decodeBlock policy (geometry cfg) C i = .ok b) (hc : c < channelCount cfg) (hk : k < chunksPerInterleave cfg) :
    ∃ samples, decodeChunk policy (geometry cfg) (containerChunk (geometry cfg) C i c k) = .ok samples ∧
      ∀ r x, samples[r]? = some x →
        slice b (2 * ((k * chunkSamples cfg + r) * channelCount cfg + c)) 2 = leBytes 2 x.toNat := by
  obtain ⟨Xs, hXs, rfl⟩ := decodeBlock_ok.mp h
  obtain ⟨hcc, hlen⟩ := decodedSegments_shape hXs
  obtain ⟨X, hX, hsegment⟩ := tryMap_range hXs hc
  obtain ⟨chunks, hchunks, rfl⟩ := decodeSegment_ok.mp hsegment
  obtain ⟨samples, hdec, hplace⟩ := getElem?_flatten_chunks hchunks hk
  refine ⟨samples, hdec, fun r x hx => ?_⟩
  have hr : r < chunkSamples cfg := decodeChunk_length hdec ▸ (List.getElem?_eq_some_iff.mp hx).1
  have hslice := (pcmInterleavePlacesEverySample _ _ hlen).2 _ _ _ x hX ((hplace r hr).trans hx)
  rw [hcc] at hslice
  exact hslice

/-! ### A stream's blocks (R124, R130) -/

theorem flatMap_ite {α β : Type} (p : α → Prop) [DecidablePred p] (f : α → List β) (as : List α) :
    (as.flatMap fun a => if p a then f a else []) = (as.filter p).flatMap f := by
  induction as with
  | nil => rfl
  | cons a as ih =>
    rw [List.flatMap_cons, ih, List.filter_cons]
    by_cases ha : p a <;> simp [ha]

theorem zipIdx_eq_map_range {α : Type} (as : List α) (d : α) :
    as.zipIdx = (List.range as.length).map fun n => (as.getD n d, n) := by
  refine List.ext_getElem (by simp) fun n h _ => ?_
  have hn : n < as.length := by simpa using h
  simp [hn]

/-- Stream n's PCM: blocks n, S + n, 2 · S + n, … -/
theorem streamPcm_eq {g : Geometry} {n : Nat} (hn : n < g.streamCount) (blocks : List (List Byte)) :
    streamPcm g blocks n = (List.range (ownedCount g.streamCount blocks.length n)).flatMap fun j =>
      blocks.getD (j * g.streamCount + n) [] := by
  rw [streamPcm, zipIdx_eq_map_range blocks [], List.flatMap_map,
    flatMap_ite (fun i => blockOwner g i = n) (fun i => blocks.getD i []), filter_blockOwner hn, List.flatMap_map]

section Stream

variable {g : Geometry} {n N : Nat} {blocks : List (List Byte)} (hn : n < g.streamCount)
  (hN : ∀ b ∈ blocks, b.length = N)
include hn hN

theorem length_ownedBlock : ∀ j ∈ List.range (ownedCount g.streamCount blocks.length n),
    (blocks.getD (j * g.streamCount + n) []).length = N := fun j hj => by
  have hlt := (lt_ownedCount_iff hn).mp (List.mem_range.mp hj)
  rw [List.getD_eq_getElem _ _ hlt]
  exact hN _ (List.getElem_mem hlt)

theorem streamPcm_length : (streamPcm g blocks n).length = ownedCount g.streamCount blocks.length n * N := by
  rw [streamPcm_eq hn, length_flatMap_pieces (length_ownedBlock hn hN), List.length_range]

/-- Block j of stream n is container block j · S + n. -/
theorem slice_streamPcm {j : Nat} {b : List Byte} (hb : blocks[j * g.streamCount + n]? = some b) :
    slice (streamPcm g blocks n) (j * N) N = b := by
  have hlt := (List.getElem?_eq_some_iff.mp hb).1
  have hpiece := take_drop_flatMap_pieces (length_ownedBlock hn hN) (List.getElem?_range ((lt_ownedCount_iff hn).mpr hlt))
  rw [slice, streamPcm_eq hn, hpiece, List.getD_eq_getElem?_getD, hb, Option.getD_some]

end Stream

/-! ### `decode_container` (R125, R130) -/

theorem decodeContainer_ok {p : Params} {g : Geometry} {C : List Byte} {pcms : List (List Byte)} :
    decodeContainer p g C = .ok pcms ↔
      (p.tailPolicy = .ignore ∨ C.length % g.blockBytes = 0) ∧
      ∃ blocks, tryMap (decodeBlock p.stepIndexPolicy g C) (List.range (C.length / g.blockBytes)) = .ok blocks ∧
        (List.range g.streamCount).map (streamPcm g blocks) = pcms := by
  have htail : (p.tailPolicy = .ignore ∨ C.length % g.blockBytes = 0) ↔
      ¬(C.length % g.blockBytes ≠ 0 ∧ p.tailPolicy = .fault) := by
    cases p.tailPolicy <;> simp
  rw [htail, decodeContainer]
  split
  · rename_i hfault
    exact iff_of_false nofun fun h => h.1 hfault
  · rename_i hfault
    rw [and_iff_right hfault]
    cases tryMap (decodeBlock p.stepIndexPolicy g C) (List.range (C.length / g.blockBytes)) <;> simp

/-- The PCM of stream n, if there are that many streams. -/
theorem getElem?_map_streamPcm {g : Geometry} {blocks : List (List Byte)} {n : Nat} {pcm : List Byte}
    (h : ((List.range g.streamCount).map (streamPcm g blocks))[n]? = some pcm) :
    n < g.streamCount ∧ pcm = streamPcm g blocks n := by
  obtain ⟨hn, hpcm⟩ := List.getElem?_eq_some_iff.mp h
  rw [List.getElem_map, List.getElem_range] at hpcm
  exact ⟨by simpa using hn, hpcm.symm⟩

/-- Settles O50: the blocks decoded have one length, so a stream's blocks stand one behind the other; and a block's samples are its
chunks'. -/
theorem streamsHoldTheirOwnBlocks : Obligations.StreamsHoldTheirOwnBlocks := by
  refine ⟨fun p cfg C pcms n j pcm _ _ hdec hpcm hj => ?_, fun policy cfg C b i hdec => ?_⟩
  · obtain ⟨-, blocks, hblocks, rfl⟩ := decodeContainer_ok.mp hdec
    obtain ⟨hn, rfl⟩ := getElem?_map_streamPcm hpcm
    obtain ⟨b, hb, hdecb⟩ := tryMap_range hblocks hj
    rw [hdecb]
    exact congrArg _ (slice_streamPcm hn (decodedBlocks_length hblocks) hb).symm
  · refine ⟨decodeBlock_length hdec, fun c k hc hk => ?_⟩
    obtain ⟨samples, hchunk, hplace⟩ := slice_decodeBlock hdec hc hk
    exact ⟨samples, hchunk, decodeChunk_length hchunk, hplace⟩

/-! ### DECODE_CONTAINER completes (R131, R141) -/

section Accepted

variable {policy : StepIndexPolicy} {cfg : Cfg} {C : List Byte}
  (hindex : policy = .clamp ∨ ∀ i c k, i < C.length / blockBytes cfg → c < channelCount cfg → k < chunksPerInterleave cfg →
    memRead C (chunkOffset (geometry cfg) i c k + 2) 1 ≤ 0x58)
include hindex

/-- A chunk of a whole block decodes when the policy takes its index byte. -/
theorem decodeChunk_accepted {i c k : Nat} (hi : i < C.length / blockBytes cfg) (hc : c < channelCount cfg)
    (hk : k < chunksPerInterleave cfg) :
    ∃ samples, decodeChunk policy (geometry cfg) (containerChunk (geometry cfg) C i c k) = .ok samples := by
  have hinside : chunkOffset (geometry cfg) i c k + chunkSize cfg ≤ C.length :=
    (chunk_end_le hi hc hk).trans (Nat.div_mul_le_self ..)
  have hbyte : memRead (containerChunk (geometry cfg) C i c k) 2 1 = memRead C (chunkOffset (geometry cfg) i c k + 2) 1 :=
    congrArg leNat (slice_slice C ((by norm_num : 2 + 1 ≤ 4).trans (four_le_chunkSize cfg)))
  obtain ⟨idx, hheader⟩ := headerDecode_accepts (policy := policy) (B := containerChunk (geometry cfg) C i c k)
    (hindex.imp_right fun h => hbyte ▸ h i c k hi hc hk)
  exact ⟨_, decodeChunk_eq_ok (slice_length hinside) hheader⟩

theorem decodeBlock_accepted {i : Nat} (hi : i < C.length / blockBytes cfg) :
    ∃ b, decodeBlock policy (geometry cfg) C i = .ok b := by
  have hsegment : ∀ c ∈ List.range (channelCount cfg), ∃ X, decodeSegment policy (geometry cfg) C i c = .ok X := fun c hc => by
    obtain ⟨chunks, hchunks⟩ := tryMap_succeeds (as := List.range (chunksPerInterleave cfg))
      fun k hk => decodeChunk_accepted hindex hi (List.mem_range.mp hc) (List.mem_range.mp hk)
    exact ⟨_, decodeSegment_ok.mpr ⟨chunks, hchunks, rfl⟩⟩
  obtain ⟨Xs, hXs⟩ := tryMap_succeeds hsegment
  exact ⟨_, decodeBlock_ok.mpr ⟨Xs, hXs, rfl⟩⟩

end Accepted

theorem exec_decodeContainer {s : State} {pcms : List (List Byte)} (hvalid : s.cfg.valid = true)
    (hdec : decodeContainer s.params (geometry s.cfg) s.inp = .ok pcms) :
    exec .decodeContainer s = .next (succeeded (pcmRecords pcms) s) := by
  apply exec_eq_succeeded
  simp only [effect, decodeContainerEffect, configured_valid hvalid, hdec, except_ok_bind, except_pure]

/-- Settles O49: every block decodes, and each stream holds as many of them as R143 counts. -/
theorem decodeContainerCompletes : Obligations.DecodeContainerCompletes := by
  intro s hvalid _ htail hindex
  obtain ⟨blocks, hblocks⟩ := tryMap_succeeds (as := List.range (s.inp.length / blockBytes s.cfg))
    fun i hi => decodeBlock_accepted hindex (List.mem_range.mp hi)
  have hcount : blocks.length = s.inp.length / blockBytes s.cfg := by rw [tryMap_length hblocks, List.length_range]
  have hdec := decodeContainer_ok.mpr ⟨htail, blocks, hblocks, rfl⟩
  refine ⟨_, exec_decodeContainer hvalid hdec, hdec, by simp [streamCount], fun n pcm hpcm => ?_⟩
  obtain ⟨hn, rfl⟩ := getElem?_map_streamPcm hpcm
  rw [streamPcm_length hn (decodedBlocks_length hblocks), hcount, blockPcmBytes, ← Nat.mul_assoc, ← Nat.mul_assoc]
  rfl

end Sys2Proof.Machine
end

section
/-! PROOFS. 42_interleave.md R125, R134, R142, R145, R163 with 30_encoding.md R67: padding, the records of ENCODE_CONTAINER's payload,
and the lengths that raise. -/

namespace Sys2Proof.Machine

/-! ### Loops that raise -/

/-- What a loop raises, some turn raised. -/
theorem tryMap_error_mem {α β : Type} {f : α → Except ErrKind β} {as : List α} {e : ErrKind}
    (h : tryMap f as = .error e) : ∃ a ∈ as, f a = .error e := by
  induction as with
  | nil => cases h
  | cons a as ih =>
    rw [tryMap] at h
    split at h
    · rename_i hfa
      cases h
      exact ⟨a, List.mem_cons_self, hfa⟩
    · split at h
      · rename_i has
        cases h
        obtain ⟨a', ha', hfa'⟩ := ih has
        exact ⟨a', List.mem_cons_of_mem a ha', hfa'⟩
      · cases h

/-- A loop whose turns raise one kind only raises it as soon as one turn does. -/
theorem tryMap_eq_error {α β : Type} {f : α → Except ErrKind β} {as : List α} {k : ErrKind}
    (honly : ∀ a ∈ as, ∀ e, f a = .error e → e = k) {a : α} (ha : a ∈ as) (hfa : f a = .error k) :
    tryMap f as = .error k := by
  cases h : tryMap f as with
  | error e =>
    obtain ⟨a', ha', he⟩ := tryMap_error_mem h
    rw [honly a' ha' e he]
  | ok bs =>
    obtain ⟨n, hn⟩ := List.mem_iff_getElem?.mp ha
    obtain ⟨b, -, hb⟩ := tryMap_getElem h hn
    cases hfa.symm.trans hb

/-! ### Padding (R134) -/

/-- What a channel is padded with. -/
def padValue (policy : PadPolicy) (X : List Sample) : Sample := if policy = .padLast then X.getLastD 0 else 0

theorem pad_eq (policy : PadPolicy) (want : Nat) (X : List Sample) :
    pad policy want X =
      if policy ≠ .fault ∨ X.length = want then .ok (X ++ List.replicate (want - X.length) (padValue policy X))
      else .error .sampleCountMismatch := by
  unfold pad
  by_cases hlen : X.length = want
  · simp [hlen]
  · cases policy <;> simp [hlen, padValue]

theorem pad_error {policy : PadPolicy} {want : Nat} {X : List Sample} {e : ErrKind} (h : pad policy want X = .error e) :
    e = .sampleCountMismatch := by
  rw [pad_eq] at h
  split at h <;> cases h
  rfl

theorem paddedChannels_error {policy : PadPolicy} {g : Geometry} {want : Nat} {P : List Byte} {e : ErrKind}
    (h : paddedChannels policy g want P = .error e) : e = .sampleCountMismatch := by
  obtain ⟨c, -, hc⟩ := tryMap_error_mem h
  exact pad_error hc

/-- A stream that is not exactly as long as wanted raises under Fault. -/
theorem paddedChannels_fault {cfg : Cfg} {want : Nat} {P : List Byte} (hwhole : P.length % (2 * channelCount cfg) = 0)
    (hshort : frameCount (geometry cfg) P ≠ want) :
    paddedChannels .fault (geometry cfg) want P = .error .sampleCountMismatch := by
  have hlen : (pcmChannel (geometry cfg) P 0).length = frameCount (geometry cfg) P :=
    (pcmDeinterleaveIsInverse cfg P hwhole).1 0 (channelCount_pos cfg)
  have hpad : pad .fault want (pcmChannel (geometry cfg) P 0) = .error .sampleCountMismatch := by
    rw [pad_eq, if_neg (by simpa [hlen] using hshort)]
  exact tryMap_eq_error (fun c _ e he => pad_error he) (List.mem_range.mpr (channelCount_pos cfg)) hpad

theorem encodeContainer_ragged {p : Params} {g : Geometry} {f : SlotFile} {Ps : List (List Byte)} {P : List Byte} (hP : P ∈ Ps)
    (hragged : P.length % (2 * g.channelCount) ≠ 0) : encodeContainer p g f Ps = .error .sampleCountMismatch :=
  if_pos (List.any_eq_true.mpr ⟨P, hP, decide_eq_true hragged⟩)

/-- Once every record is whole frames, the padding decides (R133). -/
theorem encodeContainer_whole {p : Params} {g : Geometry} {Ps : List (List Byte)}
    (hwhole : ∀ P ∈ Ps, P.length % (2 * g.channelCount) = 0) (f : SlotFile) :
    encodeContainer p g f Ps =
      tryMap (paddedChannels p.padPolicy g (blocksPerStream g Ps * g.blockSamples)) Ps >>= fun Y =>
        .ok (emitOver (encodeTurn g Y) (writeUsedSlots f g.streamCount g.channelCount (freshChannelState p))
          (chunkWalk g (blocksPerStream g Ps * g.streamCount))) := by
  have hnone : ¬(Ps.any fun P => P.length % (2 * g.channelCount) ≠ 0) = true := by simpa using hwhole
  rw [encodeContainer, if_neg hnone]
  cases tryMap (paddedChannels p.padPolicy g (blocksPerStream g Ps * g.blockSamples)) Ps <;> rfl

/-! ### The records (30_encoding.md R67) -/

/-- Every n bytes are a number's. -/
theorem exists_leBytes (B : List Byte) : ∃ v, v < 256 ^ B.length ∧ B = leBytes B.length v := by
  induction B with
  | nil => exact ⟨0, Nat.one_pos, rfl⟩
  | cons b B ih =>
    obtain ⟨v, hv, hB⟩ := ih
    have hb : b.toNat < 256 := b.isLt
    refine ⟨b.toNat + 256 * v, ?_, ?_⟩
    · rw [List.length_cons, Nat.pow_succ]
      omega
    · have hlow : BitVec.ofNat 8 (b.toNat + 256 * v) = b := by
        apply BitVec.eq_of_toNat_eq
        rw [BitVec.toNat_ofNat]
        omega
      have hhigh : (b.toNat + 256 * v) / 256 = v := by omega
      rw [List.length_cons, leBytes, hlow, hhigh, ← hB]

theorem parseRecords_short {n : Nat} {B : List Byte} (h : B.length < 4) : parseRecords (n + 1) B = .error .illegalCommand :=
  if_pos h

/-- A length word cuts off its record. -/
theorem parseRecords_leBytes {n v : Nat} (hv : v < 256 ^ 4) (rest : List Byte) :
    parseRecords (n + 1) (leBytes 4 v ++ rest) =
      if rest.length < v then .error .illegalCommand
      else parseRecords n (rest.drop v) >>= fun Ps => .ok (rest.take v :: Ps) := by
  have hrecord : slice (leBytes 4 v ++ rest) 4 v = rest.take v := by
    rw [slice_append_right (leBytes_length 4 v), slice, List.drop_zero]
  have hrest : (leBytes 4 v ++ rest).drop (4 + v) = rest.drop v := by
    rw [← List.drop_drop, List.drop_left' (leBytes_length 4 v)]
  have hlen : (leBytes 4 v ++ rest).length = 4 + rest.length := by rw [List.length_append, leBytes_length]
  rw [parseRecords, memRead_leBytes rest hv, hrecord, hrest, hlen, if_neg (by omega)]
  refine if_congr (by omega) rfl ?_
  cases parseRecords n (rest.drop v) <;> rfl

/-- Four bytes or more begin with a length word. -/
theorem exists_leBytes_append {B : List Byte} (h : ¬B.length < 4) : ∃ v rest, v < 256 ^ 4 ∧ B = leBytes 4 v ++ rest := by
  have hlen : (B.take 4).length = 4 := by rw [List.length_take]; omega
  obtain ⟨v, hv, hB⟩ := exists_leBytes (B.take 4)
  rw [hlen] at hv hB
  exact ⟨v, B.drop 4, hv, by rw [← hB, List.take_append_drop]⟩

/-- Bad framing raises nothing but IllegalCommand. -/
theorem parseRecords_error {n : Nat} {B : List Byte} {e : ErrKind} (h : parseRecords n B = .error e) : e = .illegalCommand := by
  induction n generalizing B with
  | zero =>
    rw [parseRecords] at h
    split at h <;> cases h
    rfl
  | succ n ih =>
    by_cases hB : B.length < 4
    · rw [parseRecords_short hB] at h
      cases h
      rfl
    · obtain ⟨v, rest, hv, rfl⟩ := exists_leBytes_append hB
      rw [parseRecords_leBytes hv] at h
      split at h
      · cases h
        rfl
      · cases htail : parseRecords n (rest.drop v) with
        | error e' =>
          rw [htail] at h
          cases h
          exact ih htail
        | ok Ps =>
          rw [htail] at h
          cases h

/-- A payload that is taken is the records it is taken for. -/
theorem parseRecords_ok {n : Nat} {B : List Byte} {Ps : List (List Byte)} (h : parseRecords n B = .ok Ps) :
    Ps.length = n ∧ (∀ P ∈ Ps, P.length < 2 ^ 32) ∧ B = Ps.flatMap fun P => leBytes 4 P.length ++ P := by
  induction n generalizing B Ps with
  | zero =>
    rw [parseRecords] at h
    split at h
    · rename_i hB
      cases h
      exact ⟨rfl, by simp, List.isEmpty_iff.mp hB⟩
    · cases h
  | succ n ih =>
    by_cases hB : B.length < 4
    · rw [parseRecords_short hB] at h
      cases h
    · obtain ⟨v, rest, hv, rfl⟩ := exists_leBytes_append hB
      rw [parseRecords_leBytes hv] at h
      split at h
      · cases h
      · rename_i hrest
        obtain ⟨Qs, hQs, hok⟩ := except_bind_ok.mp h
        cases hok
        obtain ⟨rfl, hlt, htail⟩ := ih hQs
        have hlen : (rest.take v).length = v := by rw [List.length_take]; omega
        refine ⟨rfl, List.forall_mem_cons.mpr ⟨hlen.trans_lt hv, hlt⟩, ?_⟩
        rw [List.flatMap_cons, ← htail, hlen, List.append_assoc, List.take_append_drop]

/-- Records are taken for what they are. -/
theorem parseRecords_flatMap {Ps : List (List Byte)} (h : ∀ P ∈ Ps, P.length < 2 ^ 32) :
    parseRecords Ps.length (Ps.flatMap fun P => leBytes 4 P.length ++ P) = .ok Ps := by
  induction Ps with
  | nil => rfl
  | cons P Ps ih =>
    obtain ⟨hP, hPs⟩ := List.forall_mem_cons.mp h
    rw [List.flatMap_cons, List.append_assoc, List.length_cons, parseRecords_leBytes hP, if_neg (by simp), List.drop_left,
      List.take_left, ih hPs, except_ok_bind]

/-! ### The raises -/

/-- The rule of ENCODE_CONTAINER once its payload is S records. -/
theorem encodeContainerEffect_records {s : State} {Ps : List (List Byte)} (hvalid : s.cfg.valid = true)
    (hcount : Ps.length = s.cfg.scount.toNat) (hlt : ∀ P ∈ Ps, P.length < 2 ^ 32)
    (hinp : s.inp = Ps.flatMap fun P => leBytes 4 P.length ++ P) :
    encodeContainerEffect s = encodeContainer s.params (geometry s.cfg) s.slots Ps >>= fun fC =>
      .ok ({ s with slots := fC.1 }, fC.2) := by
  have hparse : parseRecords (streamCount s.cfg) s.inp = .ok Ps := by
    rw [hinp, streamCount, ← hcount, parseRecords_flatMap hlt]
  simp only [encodeContainerEffect, configured_valid hvalid, except_ok_bind, geometry_streamCount, hparse]
  rfl

theorem effect_decodeContainer_tail {s : State} (hvalid : s.cfg.valid = true) (hfault : s.params.tailPolicy = .fault)
    (htail : s.inp.length % blockBytes s.cfg ≠ 0) : effect .decodeContainer s = .error .truncatedContainer := by
  have hdec : decodeContainer s.params (geometry s.cfg) s.inp = .error .truncatedContainer := if_pos ⟨htail, hfault⟩
  simp only [effect, decodeContainerEffect, configured_valid hvalid, hdec, except_ok_bind, except_error_bind]

/-- A payload that is no S records is not taken for any (R67). -/
theorem effect_encodeContainer_framing {s : State} (hvalid : s.cfg.valid = true)
    (hframing : ∀ Qs : List (List Byte), Qs.length = s.cfg.scount.toNat → (∀ Q ∈ Qs, Q.length < 2 ^ 32) →
      s.inp ≠ Qs.flatMap fun Q => leBytes 4 Q.length ++ Q) :
    effect .encodeContainer s = .error .illegalCommand := by
  have hparse : parseRecords (streamCount s.cfg) s.inp = .error .illegalCommand := by
    cases h : parseRecords (streamCount s.cfg) s.inp with
    | error e => rw [parseRecords_error h]
    | ok Qs =>
      obtain ⟨hn, hlt, hinp⟩ := parseRecords_ok h
      exact absurd hinp (hframing Qs hn hlt)
  simp only [effect, encodeContainerEffect, configured_valid hvalid, except_ok_bind, geometry_streamCount, hparse,
    except_error_bind]

/-- A ragged record raises before any padding (R145), and under Fault a short stream raises in the padding (R134). -/
theorem encodeContainer_lengths {p : Params} {cfg : Cfg} {f : SlotFile} {Ps : List (List Byte)}
    (hlengths : (∃ P ∈ Ps, P.length % (2 * channelCount cfg) ≠ 0) ∨ (p.padPolicy = .fault ∧
      ∃ P ∈ Ps, frameCount (geometry cfg) P ≠ blocksPerStream (geometry cfg) Ps * blockSamples cfg)) :
    encodeContainer p (geometry cfg) f Ps = .error .sampleCountMismatch := by
  by_cases hragged : ∃ P ∈ Ps, P.length % (2 * channelCount cfg) ≠ 0
  · obtain ⟨P, hP, hne⟩ := hragged
    exact encodeContainer_ragged hP hne
  · obtain ⟨hfault, P, hP, hshort⟩ := hlengths.resolve_left hragged
    push Not at hragged
    have hpad : tryMap (paddedChannels p.padPolicy (geometry cfg) (blocksPerStream (geometry cfg) Ps * blockSamples cfg)) Ps =
        .error .sampleCountMismatch :=
      tryMap_eq_error (fun _ _ _ => paddedChannels_error) hP (hfault ▸ paddedChannels_fault (hragged P hP) hshort)
    rw [encodeContainer_whole hragged, geometry_blockSamples, hpad, except_error_bind]

/-- Settles O22: each length is the first check that fails, and what it fails with is the one kind. -/
theorem containerLengthsRaise : Obligations.ContainerLengthsRaise := by
  intro s Ps hvalid
  refine ⟨fun hfault htail => ?_, fun hframing => ?_, fun hcount hlt hinp hlengths => ?_⟩
  · exact exec_eq_raised (effect_decodeContainer_tail hvalid hfault htail)
  · exact exec_eq_raised (effect_encodeContainer_framing hvalid hframing)
  · have hraise : effect .encodeContainer s = .error .sampleCountMismatch := by
      rw [effect, encodeContainerEffect_records hvalid hcount hlt hinp, encodeContainer_lengths hlengths, except_error_bind]
    exact exec_eq_raised hraise

end Sys2Proof.Machine
end

section
/-! PROOFS. 42_interleave.md R133 to R136, R142: the encode direction. The walk visits the chunks in the order of their numbers; to one
slot only the turns of its own stream and channel matter, and they come in the order of the stream's chunks, so the slot goes through
the states of that one pair as if it were alone. -/

namespace Sys2Proof.Machine

/-! ### Walks -/

/-- A walk whose every turn emits N items emits N items a turn. -/
theorem emitOver_length_mem {σ α β : Type} {f : σ → α → σ × List β} {N : Nat} {as : List α}
    (hf : ∀ st, ∀ a ∈ as, (f st a).2.length = N) (st : σ) : (emitOver f st as).2.length = as.length * N := by
  induction as generalizing st with
  | nil => simp
  | cons a as ih =>
    rw [emitOver_cons, List.length_append, hf st a List.mem_cons_self,
      ih (fun st a' ha' => hf st a' (List.mem_cons_of_mem a ha')), List.length_cons, Nat.succ_mul, Nat.add_comm]

/-- The place that an element of a list takes among those a test keeps is how many it keeps before it. -/
theorem getElem?_filter_countP_take {α : Type} {p : α → Bool} {as : List α} {n : Nat} {a : α} (ha : as[n]? = some a)
    (hp : p a = true) : (as.filter p)[(as.take n).countP p]? = some a := by
  obtain ⟨hn, rfl⟩ := List.getElem?_eq_some_iff.mp ha
  have hsplit : as.filter p = (as.take n).filter p ++ as[n] :: (as.drop (n + 1)).filter p := by
    rw [← List.filter_cons_of_pos hp, ← List.drop_eq_getElem_cons hn, ← List.filter_append, List.take_append_drop]
  rw [hsplit, List.countP_eq_length_filter, List.getElem?_append_right le_rfl, Nat.sub_self]
  rfl

section Walk

variable (g : Geometry)

theorem length_chunkWalk_segment (i c : Nat) :
    ((List.range g.chunksPerInterleave).map fun k => (i, c, k)).length = g.chunksPerInterleave := by simp

theorem length_chunkWalk_block (i : Nat) :
    ((List.range g.channelCount).flatMap fun c => (List.range g.chunksPerInterleave).map fun k => (i, c, k)).length =
      g.channelCount * g.chunksPerInterleave := by
  rw [length_flatMap_pieces fun c _ => length_chunkWalk_segment g i c, List.length_range]

theorem chunkWalk_length (n : Nat) : (chunkWalk g n).length = n * (g.channelCount * g.chunksPerInterleave) := by
  rw [chunkWalk, length_flatMap_pieces fun i _ => length_chunkWalk_block g i, List.length_range]

variable {g}

/-- Turn number n of the walk encodes chunk number n of the container (R133). -/
theorem getElem?_chunkWalk {n i c k : Nat} (hi : i < n) (hc : c < g.channelCount) (hk : k < g.chunksPerInterleave) :
    (chunkWalk g n)[chunkNumber g i c k]? = some (i, c, k) := by
  have hnumber : chunkNumber g i c k = i * (g.channelCount * g.chunksPerInterleave) + (c * g.chunksPerInterleave + k) := by
    rw [chunkNumber]
    ring
  rw [hnumber, chunkWalk, getElem?_flatMap_pieces (fun i _ => length_chunkWalk_block g i) (List.getElem?_range hi)
    (place_lt hc hk), getElem?_flatMap_pieces (fun c _ => length_chunkWalk_segment g i c) (List.getElem?_range hc) hk,
    List.getElem?_map, List.getElem?_range hk]
  rfl

/-- A turn that encodes a chunk of the slot's own stream and channel. -/
def ownTurn (g : Geometry) (id : SlotId) (a : Nat × Nat × Nat) : Bool :=
  blockOwner g a.1 = id.stream.val ∧ a.2.1 = id.chan.val

/-- In a block, the chunks of one channel. -/
theorem filter_channel {cc c : Nat} (hc : c < cc) : (List.range cc).filter (fun d => d = c) = [c] := by
  rw [List.filter_eq, List.count_range, if_pos hc]
  rfl

/-- The pair's turns in the walk: its stream's blocks in order, and in each the chunks of its channel. -/
theorem filter_ownTurn_chunkWalk {n : Nat} {id : SlotId} (hs : id.stream.val < g.streamCount) (hc : id.chan.val < g.channelCount) :
    (chunkWalk g n).filter (ownTurn g id) =
      (List.range (ownedCount g.streamCount n id.stream.val)).flatMap fun j =>
        (List.range g.chunksPerInterleave).map fun k => (j * g.streamCount + id.stream.val, id.chan.val, k) := by
  have hsegment : ∀ i c, ((List.range g.chunksPerInterleave).map fun k => (i, c, k)).filter (ownTurn g id) =
      if blockOwner g i = id.stream.val then
        (if c = id.chan.val then (List.range g.chunksPerInterleave).map fun k => (i, c, k) else []) else [] := by
    intro i c
    by_cases hi : blockOwner g i = id.stream.val <;> by_cases hd : c = id.chan.val <;> simp [ownTurn, hi, hd]
  have hblock : ∀ i, ((List.range g.channelCount).flatMap fun c =>
      (List.range g.chunksPerInterleave).map fun k => (i, c, k)).filter (ownTurn g id) =
      if blockOwner g i = id.stream.val then (List.range g.chunksPerInterleave).map fun k => (i, id.chan.val, k) else [] := by
    intro i
    simp only [List.filter_flatMap, hsegment]
    split
    · rw [flatMap_ite (fun c => c = id.chan.val), filter_channel hc, List.flatMap_singleton]
    · simp
  simp only [chunkWalk, List.filter_flatMap, hblock]
  rw [flatMap_ite (fun i => blockOwner g i = id.stream.val), filter_blockOwner hs, List.flatMap_map]

/-- Before the turn of chunk k of a pair's block, the walk has encoded as many of the pair's chunks as stand before that one in
its stream. -/
theorem countP_ownTurn_take {n N i c k : Nat} {id : SlotId} (hs : id.stream.val < g.streamCount)
    (hc : id.chan.val < g.channelCount) (ha : (chunkWalk g n)[N]? = some (i, c, k)) (hown : ownTurn g id (i, c, k) = true) :
    ((chunkWalk g n).take N).countP (ownTurn g id) = blockSeq g i * g.chunksPerInterleave + k := by
  have hplace := getElem?_filter_countP_take ha hown
  generalize ((chunkWalk g n).take N).countP (ownTurn g id) = L at hplace ⊢
  have hpieces : ∀ j ∈ List.range (ownedCount g.streamCount n id.stream.val),
      ((List.range g.chunksPerInterleave).map fun k => (j * g.streamCount + id.stream.val, id.chan.val, k)).length =
        g.chunksPerInterleave := fun j _ => length_chunkWalk_segment g _ _
  rw [filter_ownTurn_chunkWalk hs hc] at hplace
  have hL := (List.getElem?_eq_some_iff.mp hplace).1
  rw [length_flatMap_pieces hpieces, List.length_range] at hL
  have hpos : 0 < g.chunksPerInterleave := Nat.pos_of_mul_pos_left (Nat.zero_lt_of_lt hL)
  have hj : L / g.chunksPerInterleave < ownedCount g.streamCount n id.stream.val :=
    Nat.div_lt_of_lt_mul (by rwa [Nat.mul_comm])
  have hk := Nat.mod_lt L hpos
  rw [← Nat.div_add_mod' L g.chunksPerInterleave, getElem?_flatMap_pieces hpieces (List.getElem?_range hj) hk,
    List.getElem?_map, List.getElem?_range hk] at hplace
  simp only [Option.map_some, Option.some.injEq, Prod.mk.injEq] at hplace
  obtain ⟨rfl, -, rfl⟩ := hplace
  rw [blockSeq, place_div _ hs, Nat.div_add_mod']

/-- In the whole walk the pair has every chunk of its stream's n blocks. -/
theorem countP_ownTurn_chunkWalk {n : Nat} {id : SlotId} (hs : id.stream.val < g.streamCount)
    (hc : id.chan.val < g.channelCount) :
    (chunkWalk g (n * g.streamCount)).countP (ownTurn g id) = n * g.chunksPerInterleave := by
  have hblocks : ownedCount g.streamCount (n * g.streamCount) id.stream.val = n := by
    rw [ownedCount, Nat.mul_div_cancel _ (Nat.zero_lt_of_lt hs), Nat.mul_mod_left]
    rfl
  rw [List.countP_eq_length_filter, filter_ownTurn_chunkWalk hs hc,
    length_flatMap_pieces fun j _ => length_chunkWalk_segment g _ _, List.length_range, hblocks]

/-- A turn of another pair leaves the slot. -/
theorem readSlot_encodeTurn_other {id : SlotId} {a : Nat × Nat × Nat} (hown : ownTurn g id a = false)
    (Y : List (List (List Sample))) (f : SlotFile) : readSlot (encodeTurn g Y f a).1 id = readSlot f id := by
  obtain ⟨i, c, k⟩ := a
  rcases encodeTurn_cases g Y f i c k with h | ⟨id', hs, hc, h⟩
  · rw [h]
  · rw [h, readSlot_writeSlot_other]
    rintro rfl
    simp [ownTurn, hs, hc] at hown

end Walk

/-! ### The padded samples of one channel (R134) -/

theorem getElem?_pad {policy : PadPolicy} {want n : Nat} {X Y : List Sample} (h : pad policy want X = .ok Y) (hn : n < want) :
    Y[n]? = some (X.getD n (padValue policy X)) := by
  rw [pad_eq] at h
  split at h
  · cases h
    rw [List.getD_eq_getElem?_getD]
    by_cases hX : n < X.length
    · rw [List.getElem?_append_left hX, List.getElem?_eq_getElem hX, Option.getD_some]
    · rw [List.getElem?_append_right (by omega), List.getElem?_replicate_of_lt (by omega), List.getElem?_eq_none (by omega),
        Option.getD_none]
  · cases h

/-- A PCM's channel with its padding, without end, is `paddedSample`. -/
theorem paddedSample_eq (policy : PadPolicy) {cfg : Cfg} {P : List Byte} {c : Nat} (hwhole : P.length % (2 * channelCount cfg) = 0)
    (hc : c < channelCount cfg) (n : Nat) :
    paddedSample policy cfg P c n =
      (pcmChannel (geometry cfg) P c).getD n (padValue policy (pcmChannel (geometry cfg) P c)) := by
  obtain ⟨hlength, hsample, -⟩ := pcmDeinterleaveIsInverse cfg P hwhole
  have hlen := hlength c hc
  have hget := fun t => hsample c t hc
  simp only [paddedSample, List.getD_eq_getElem?_getD]
  split_ifs with hn hlast
  · rw [hget n hn, Option.getD_some]
  · rw [List.getElem?_eq_none (by omega), Option.getD_none, padValue, if_pos hlast.1, List.getLastD_eq_getLast?,
      List.getLast?_eq_getElem?, hlen, hget _ (by omega), Option.getD_some]
  · rw [List.getElem?_eq_none (by omega), Option.getD_none, padValue]
    split_ifs with hpolicy
    · have hempty : pcmChannel (geometry cfg) P c = [] :=
        List.length_eq_zero_iff.mp (hlen.trans (Nat.eq_zero_of_not_pos fun hpos => hlast ⟨hpolicy, hpos⟩))
      rw [hempty]
      rfl
    · rfl

/-- Chunk m's window of a stream's channel. -/
def pairWindow (policy : PadPolicy) (cfg : Cfg) (P : List Byte) (c m : Nat) : List Sample :=
  (List.range (chunkSamples cfg)).map fun r => paddedSample policy cfg P c (m * chunkSamples cfg + r)

@[simp] theorem pairWindow_length (policy : PadPolicy) (cfg : Cfg) (P : List Byte) (c m : Nat) :
    (pairWindow policy cfg P c m).length = chunkSamples cfg := by simp [pairWindow]

/-- The state of a stream and channel before its chunk m (R135, R136). -/
def pairState (p : Params) (cfg : Cfg) (P : List Byte) (c : Nat) : Nat → ChannelState
  | 0 => freshChannelState p
  | m + 1 => (encodeWindow (pairState p cfg P c m) (pairWindow p.padPolicy cfg P c m)).1

/-- Chunk m of a stream and channel. -/
def pairChunk (p : Params) (cfg : Cfg) (P : List Byte) (c m : Nat) : List Byte :=
  (encodeWindow (pairState p cfg P c m) (pairWindow p.padPolicy cfg P c m)).2

theorem encodeChunk_pairWindow (p : Params) (cfg : Cfg) (P : List Byte) (c m : Nat) :
    encodeChunk (geometry cfg) (pairState p cfg P c m) (pairWindow p.padPolicy cfg P c m) =
      .ok (pairState p cfg P c (m + 1), pairChunk p cfg P c m) :=
  encodeChunk_of_length (pairWindow_length ..) _

/-! ### A run (R133) -/

/-- What the walk starts from once the checks have passed: a slot for every stream and channel, S records of whole sample frames, and
their padded channels Y. -/
structure EncodeInput (p : Params) (cfg : Cfg) (Ps : List (List Byte)) (Y : List (List (List Sample))) : Prop where
  streams : streamCount cfg ≤ 6
  count : Ps.length = streamCount cfg
  whole : ∀ P ∈ Ps, P.length % (2 * channelCount cfg) = 0
  padded : tryMap (paddedChannels p.padPolicy (geometry cfg) (blocksPerStream (geometry cfg) Ps * blockSamples cfg)) Ps = .ok Y

/-- The walk of R133 over the container of these streams. -/
def containerWalk (cfg : Cfg) (Ps : List (List Byte)) : List (Nat × Nat × Nat) :=
  chunkWalk (geometry cfg) (blocksPerStream (geometry cfg) Ps * streamCount cfg)

/-- Some turns of the walk, from the fresh slots (R135). -/
def encodeTurns (p : Params) (cfg : Cfg) (f : SlotFile) (Y : List (List (List Sample))) (turns : List (Nat × Nat × Nat)) :
    SlotFile × List Byte :=
  emitOver (encodeTurn (geometry cfg) Y) (writeUsedSlots f (streamCount cfg) (channelCount cfg) (freshChannelState p)) turns

/-- Stream owner(i) and channel c have a slot. -/
theorem exists_slot {cfg : Cfg} (hstreams : streamCount cfg ≤ 6) {n c : Nat} (hn : n < streamCount cfg)
    (hc : c < channelCount cfg) : ∃ id : SlotId, id.stream.val = n ∧ id.chan.val = c := by
  have hc2 : c < 2 := hc.trans_le (by unfold channelCount; split <;> norm_num)
  exact ⟨⟨⟨n, hn.trans_le hstreams⟩, ⟨c, hc2⟩⟩, rfl, rfl⟩

/-- `countP_ownTurn_take` on this walk. -/
theorem countP_take_containerWalk {cfg : Cfg} {Ps : List (List Byte)} {N i k : Nat} {id : SlotId}
    (hs : id.stream.val < streamCount cfg) (hc : id.chan.val < channelCount cfg)
    (ha : (containerWalk cfg Ps)[N]? = some (i, id.chan.val, k)) (howner : blockOwner (geometry cfg) i = id.stream.val) :
    ((containerWalk cfg Ps).take N).countP (ownTurn (geometry cfg) id) =
      blockSeq (geometry cfg) i * chunksPerInterleave cfg + k :=
  countP_ownTurn_take (g := geometry cfg) hs hc ha (decide_eq_true ⟨howner, rfl⟩)

/-- The last window of a stream ends inside its P_blocks blocks. -/
theorem window_end_le {cfg : Cfg} {n j k : Nat} (hj : j < n) (hk : k < chunksPerInterleave cfg) :
    (j * chunksPerInterleave cfg + k) * chunkSamples cfg + chunkSamples cfg ≤ n * blockSamples cfg := by
  rw [blockSamples, ← Nat.mul_assoc]
  exact piece_end_le (place_lt hj hk) _

section Run

variable {p : Params} {cfg : Cfg} {Ps : List (List Byte)} {Y : List (List (List Sample))} (h : EncodeInput p cfg Ps Y)
include h

theorem encodeContainer_eq_turns (f : SlotFile) :
    encodeContainer p (geometry cfg) f Ps = .ok (encodeTurns p cfg f Y (containerWalk cfg Ps)) := by
  rw [encodeContainer_whole h.whole, geometry_blockSamples, h.padded, except_ok_bind]
  rfl

theorem stream_lt {n : Nat} {P : List Byte} (hP : Ps[n]? = some P) : n < streamCount cfg :=
  h.count ▸ (List.getElem?_eq_some_iff.mp hP).1

section Pair

variable {id : SlotId} {P : List Byte} (hP : Ps[id.stream.val]? = some P) (hc : id.chan.val < channelCount cfg)
include hP hc

/-- The window that the walk takes is the pair's. -/
theorem sampleWindow_eq {i k : Nat} (hi : i < blocksPerStream (geometry cfg) Ps * streamCount cfg)
    (hk : k < chunksPerInterleave cfg) (howner : blockOwner (geometry cfg) i = id.stream.val) :
    sampleWindow (geometry cfg) Y i id.chan.val k =
      pairWindow p.padPolicy cfg P id.chan.val (blockSeq (geometry cfg) i * chunksPerInterleave cfg + k) := by
  obtain ⟨Zs, hZs, hchannels⟩ := tryMap_getElem h.padded hP
  obtain ⟨Z, hZ, hpad⟩ := tryMap_range hchannels hc
  have hseq : blockSeq (geometry cfg) i < blocksPerStream (geometry cfg) Ps :=
    Nat.div_lt_of_lt_mul (by rwa [Nat.mul_comm])
  have hend := window_end_le hseq hk
  have hZget : ((Y[blockOwner (geometry cfg) i]?).getD [])[id.chan.val]?.getD [] = Z := by
    rw [howner, hZs, Option.getD_some, hZ, Option.getD_some]
  simp only [sampleWindow, hZget, geometry_chunksPerInterleave, geometry_chunkSamples]
  refine List.ext_getElem? fun r => ?_
  by_cases hr : r < chunkSamples cfg
  · rw [List.getElem?_take_of_lt hr, List.getElem?_drop, getElem?_pad hpad (by omega), pairWindow, List.getElem?_map,
      List.getElem?_range hr, Option.map_some, paddedSample_eq _ (h.whole P (List.mem_of_getElem? hP)) hc]
  · rw [List.getElem?_eq_none (by rw [List.length_take]; omega), List.getElem?_eq_none (by rw [pairWindow_length]; omega)]

/-- The pair's turn encodes its next window from its slot. -/
theorem encodeTurn_own {i k : Nat} (hi : i < blocksPerStream (geometry cfg) Ps * streamCount cfg)
    (hk : k < chunksPerInterleave cfg) (howner : blockOwner (geometry cfg) i = id.stream.val) (f : SlotFile) :
    encodeTurn (geometry cfg) Y f (i, id.chan.val, k) =
      let r := encodeWindow (readSlot f id)
        (pairWindow p.padPolicy cfg P id.chan.val (blockSeq (geometry cfg) i * chunksPerInterleave cfg + k))
      (writeSlot f id r.1, r.2) := by
  simp only [encodeTurn, howner, slotOperand_slot, sampleWindow_eq h hP hc hi hk howner]

/-- After some turns of the walk, the pair's slot has gone through as many states as the pair had turns. -/
theorem readSlot_encodeTurns_take (f : SlotFile) {n : Nat} (hn : n ≤ (containerWalk cfg Ps).length) :
    readSlot (encodeTurns p cfg f Y ((containerWalk cfg Ps).take n)).1 id =
      pairState p cfg P id.chan.val (((containerWalk cfg Ps).take n).countP (ownTurn (geometry cfg) id)) := by
  have hs := stream_lt h hP
  induction n with
  | zero => exact (readSlot_writeUsedSlots ..).trans (if_pos ⟨hs, hc⟩)
  | succ n ih =>
    obtain ⟨⟨i, c, k⟩, ha⟩ : ∃ a, (containerWalk cfg Ps)[n]? = some a := ⟨_, List.getElem?_eq_getElem hn⟩
    have hcount : ((containerWalk cfg Ps).take (n + 1)).countP (ownTurn (geometry cfg) id) =
        ((containerWalk cfg Ps).take n).countP (ownTurn (geometry cfg) id) +
          if ownTurn (geometry cfg) id (i, c, k) then 1 else 0 := by
      rw [List.take_add_one, ha, List.countP_append]
      exact congrArg _ (List.countP_singleton ..)
    rw [hcount, encodeTurns, emitOver_take_succ _ _ ha]
    have hprev := ih (Nat.le_of_succ_le hn)
    rw [encodeTurns] at hprev
    cases hown : ownTurn (geometry cfg) id (i, c, k) with
    | false => exact (readSlot_encodeTurn_other hown Y _).trans hprev
    | true =>
      obtain ⟨howner, rfl⟩ := of_decide_eq_true hown
      obtain ⟨hi, -, hk⟩ := mem_chunkWalk.mp (List.mem_of_getElem? ha)
      rw [encodeTurn_own h hP hc hi hk howner, readSlot_writeSlot_same, hprev,
        countP_take_containerWalk hs hc ha howner]
      rfl

/-- At the end, the slot has the state after the pair's last chunk. -/
theorem readSlot_encodeTurns (f : SlotFile) :
    readSlot (encodeTurns p cfg f Y (containerWalk cfg Ps)).1 id =
      pairState p cfg P id.chan.val (blocksPerStream (geometry cfg) Ps * chunksPerInterleave cfg) := by
  have hall := readSlot_encodeTurns_take h hP hc f le_rfl
  rw [List.take_length] at hall
  rw [hall]
  exact congrArg _ (countP_ownTurn_chunkWalk (stream_lt h hP) hc)

end Pair

theorem exists_stream {i : Nat} (hi : i < blocksPerStream (geometry cfg) Ps * streamCount cfg) :
    ∃ P, Ps[blockOwner (geometry cfg) i]? = some P :=
  ⟨_, List.getElem?_eq_getElem (h.count ▸ Nat.mod_lt i (Nat.pos_of_mul_pos_left (Nat.zero_lt_of_lt hi)))⟩

/-- Every turn of the walk emits a chunk. -/
theorem encodeTurn_length (f : SlotFile) :
    ∀ a ∈ containerWalk cfg Ps, (encodeTurn (geometry cfg) Y f a).2.length = chunkSize cfg := by
  rintro ⟨i, c, k⟩ ha
  obtain ⟨hi, hc, hk⟩ := mem_chunkWalk.mp ha
  obtain ⟨P, hP⟩ := exists_stream h hi
  obtain ⟨id, howner, rfl⟩ := exists_slot h.streams (stream_lt h hP) hc
  rw [← howner] at hP
  rw [encodeTurn_own h hP hc hi hk howner.symm]
  exact encodeWindow_length (pairWindow_length ..) _

/-- The container is P_blocks · S blocks (R132). -/
theorem encodeTurns_length (f : SlotFile) :
    (encodeTurns p cfg f Y (containerWalk cfg Ps)).2.length =
      blocksPerStream (geometry cfg) Ps * streamCount cfg * blockBytes cfg := by
  rw [encodeTurns, emitOver_length_mem (encodeTurn_length h), containerWalk, chunkWalk_length, blockBytes_eq, Nat.mul_assoc]
  rfl

/-- The chunk at offset(i, c, k) is its pair's. -/
theorem slice_encodeTurns {id : SlotId} {P : List Byte} (hP : Ps[id.stream.val]? = some P) (hc : id.chan.val < channelCount cfg)
    {i k : Nat} (hi : i < blocksPerStream (geometry cfg) Ps * streamCount cfg) (hk : k < chunksPerInterleave cfg)
    (howner : blockOwner (geometry cfg) i = id.stream.val) (f : SlotFile) :
    slice (encodeTurns p cfg f Y (containerWalk cfg Ps)).2 (chunkOffset (geometry cfg) i id.chan.val k) (chunkSize cfg) =
      pairChunk p cfg P id.chan.val (blockSeq (geometry cfg) i * chunksPerInterleave cfg + k) := by
  have ha : (containerWalk cfg Ps)[chunkNumber (geometry cfg) i id.chan.val k]? = some (i, id.chan.val, k) :=
    getElem?_chunkWalk hi hc hk
  have hstate := readSlot_encodeTurns_take h hP hc f (List.getElem?_eq_some_iff.mp ha).1.le
  rw [countP_take_containerWalk (stream_lt h hP) hc ha howner, encodeTurns] at hstate
  rw [chunkOffset_eq, Nat.mul_comm, slice, encodeTurns, emitOver_turn (encodeTurn_length h) _ ha,
    encodeTurn_own h hP hc hi hk howner, hstate]
  rfl

end Run

/-! ### ENCODE_CONTAINER -/

/-- Padding takes every stream when the policy pads, or when each is exactly as long as wanted. -/
theorem exists_padded {policy : PadPolicy} {cfg : Cfg} {want : Nat} {Ps : List (List Byte)}
    (hwhole : ∀ P ∈ Ps, P.length % (2 * channelCount cfg) = 0)
    (htake : policy ≠ .fault ∨ ∀ P ∈ Ps, frameCount (geometry cfg) P = want) :
    ∃ Y, tryMap (paddedChannels policy (geometry cfg) want) Ps = .ok Y := by
  refine tryMap_succeeds fun P hP => tryMap_succeeds fun c hc => ⟨_, (pad_eq ..).trans (if_pos ?_)⟩
  refine htake.imp_right fun hlen => ?_
  rw [← hlen P hP]
  exact (pcmDeinterleaveIsInverse cfg P (hwhole P hP)).1 c (List.mem_range.mp hc)

/-- Settles O51: the states of a pair are those its slot goes through, and its chunks those it emits. -/
theorem encodeContainerCompletes : Obligations.EncodeContainerCompletes := by
  intro s Ps hvalid hlegal hcount hinp hrecords htake
  have hlt : ∀ P ∈ Ps, P.length < 2 ^ 32 := fun P hP => (hrecords P hP).1
  have hwhole : ∀ P ∈ Ps, P.length % (2 * channelCount s.cfg) = 0 := fun P hP => (hrecords P hP).2
  obtain ⟨Y, hY⟩ := exists_padded hwhole htake
  have hinput : EncodeInput s.params s.cfg Ps Y := ⟨(hlegal hvalid).2, hcount, hwhole, hY⟩
  have hencode := encodeContainer_eq_turns hinput s.slots
  have heffect : effect .encodeContainer s = .ok
      ({ s with slots := (encodeTurns s.params s.cfg s.slots Y (containerWalk s.cfg Ps)).1 },
        (encodeTurns s.params s.cfg s.slots Y (containerWalk s.cfg Ps)).2) := by
    rw [effect, encodeContainerEffect_records hvalid hcount hlt hinp, hencode, except_ok_bind]
  refine ⟨(encodeTurns s.params s.cfg s.slots Y (containerWalk s.cfg Ps)).1,
    (encodeTurns s.params s.cfg s.slots Y (containerWalk s.cfg Ps)).2, exec_eq_succeeded heffect, hencode, encodeTurns_length hinput s.slots, fun id hout => ?_,
    fun id P hP hc => ⟨pairState s.params s.cfg P id.chan.val, rfl, freshChannelState_idx_toNat s.params,
      readSlot_encodeTurns hinput hP hc s.slots, fun j k hj hk => ?_⟩⟩
  · have hmay : mayWriteSlot .encodeContainer s.cfg id = false := by
      rw [mayWriteSlot, ← Bool.decide_and, decide_eq_false_iff_not, streamCount]
      omega
    exact (effect_slotWrites heffect).readSlot_eq hmay
  · have hs := stream_lt hinput hP
    have hseq : blockSeq (geometry s.cfg) (j * streamCount s.cfg + id.stream.val) = j := place_div j hs
    have hchunk := slice_encodeTurns hinput hP hc (place_lt hj hs) hk (Nat.mul_add_mod_of_lt hs) s.slots
    rw [hseq] at hchunk
    exact (encodeChunk_pairWindow ..).trans (congrArg (fun B => Except.ok (_, B)) hchunk.symm)

/-! ### The leading samples (R134, R146) -/

/-- A sample read from whole frames has the bytes that it was read from. -/
theorem bytes16_memRead {cfg : Cfg} {P : List Byte} {n c : Nat} (hwhole : P.length % (2 * channelCount cfg) = 0)
    (hn : n < P.length / (2 * channelCount cfg)) (hc : c < channelCount cfg) :
    bytes16 (BitVec.ofNat 16 (memRead P (2 * (n * channelCount cfg + c)) 2)) = slice P (2 * (n * channelCount cfg + c)) 2 := by
  obtain ⟨xs, T, rfl, hT, hxs⟩ := exists_bytesOf_frames hwhole
  rw [hT] at hn
  obtain ⟨x, hx⟩ : ∃ x, xs[n * channelCount cfg + c]? = some x := ⟨_, List.getElem?_eq_getElem (hxs ▸ place_lt hn hc)⟩
  rw [memRead_bytesOf hx, slice_bytesOf hx, BitVec.ofNat_toNat, BitVec.setWidth_eq]

/-- A pair's chunk begins with its window's first sample. -/
theorem take_pairChunk (p : Params) (cfg : Cfg) (P : List Byte) (c m : Nat) :
    (pairChunk p cfg P c m).take 2 = bytes16 (paddedSample p.padPolicy cfg P c (m * chunkSamples cfg)) := by
  have hwindow : ∃ xs, pairWindow p.padPolicy cfg P c m = paddedSample p.padPolicy cfg P c (m * chunkSamples cfg) :: xs := by
    rw [pairWindow, chunkSamples_eq, List.range_succ_eq_map]
    exact ⟨_, rfl⟩
  obtain ⟨xs, hxs⟩ := hwindow
  rw [pairChunk, hxs, encodeWindow_cons, headerEncode_signExtend, List.append_assoc, List.take_left' (bytes16_length _)]

/-- Settles O53: the chunk is its pair's, and begins with the padded sample, which has the bytes that it has in the PCM. -/
theorem encodedChunksHoldTheirLeadingSample : Obligations.EncodedChunksHoldTheirLeadingSample := by
  intro p cfg f f' Ps C P i c k hvalid hlegal hcount hencode hi hc hk hP w T
  obtain ⟨hwhole, Y, hY, hwalk⟩ := encodeContainer_ok hencode
  have hinput : EncodeInput p cfg Ps Y := ⟨(hlegal hvalid).2, hcount, hwhole, hY⟩
  have hC : C = (encodeTurns p cfg f Y (containerWalk cfg Ps)).2 := congrArg Prod.snd hwalk
  obtain ⟨id, howner, rfl⟩ := exists_slot hinput.streams (stream_lt hinput hP) hc
  rw [← howner] at hP
  have hwholeP := hwhole P (List.mem_of_getElem? hP)
  have hlead : slice C (chunkOffset (geometry cfg) i id.chan.val k) 2 = bytes16 (paddedSample p.padPolicy cfg P id.chan.val w) := by
    have hchunk := slice_encodeTurns hinput hP hc hi hk howner.symm f
    rw [← hC] at hchunk
    calc slice C (chunkOffset (geometry cfg) i id.chan.val k) 2
        = slice (slice C (chunkOffset (geometry cfg) i id.chan.val k) (chunkSize cfg)) 0 2 :=
          (slice_slice C ((by norm_num : 0 + 2 ≤ 4).trans (four_le_chunkSize cfg))).symm
      _ = bytes16 (paddedSample p.padPolicy cfg P id.chan.val w) := by rw [hchunk]; exact take_pairChunk ..
  rw [hlead, paddedSample]
  split_ifs with hw hlast
  · exact bytes16_memRead hwholeP hw hc
  · exact bytes16_memRead hwholeP (Nat.sub_lt hlast.2 Nat.one_pos) hc
  · rfl

end Sys2Proof.Machine
end

section
/-! PROOFS. 43_state_access.md R150 to R153: INIT_STATES, WRITE_STATE and READ_STATE, and that a chunk's samples are those EXPAND
gives of its nibbles from the header's state. -/

namespace Sys2Proof.Machine

/-! ### INIT_STATES (R150) -/

theorem exec_initStates {s : State} (hinp : s.inp = []) :
    exec .initStates s = .next (succeeded [] { s with slots := fillSlots (freshChannelState s.params) }) := by
  apply exec_eq_succeeded
  simp only [effect, initStatesEffect, payloadIs_of_length (List.length_eq_zero_iff.mpr hinp), except_ok_bind, except_pure]

/-- Settles O31: the file written holds the fresh state in every slot. -/
theorem initStatesMakesEverySlotFresh : Obligations.InitStatesMakesEverySlotFresh := by
  intro s hinp
  refine ⟨fillSlots (freshChannelState s.params), exec_initStates hinp, fun id => ?_⟩
  rw [readSlot_fillSlots]
  exact ⟨rfl, freshChannelState_idx_toNat s.params⟩

/-! ### WRITE_STATE (R151) -/

theorem memRead_singleton (b : Byte) : memRead [b] 0 1 = b.toNat := by simp [memRead, slice, leNat]

/-- With the slot and one byte given, the bound on the byte is the only check left. -/
theorem effect_writeState {s : State} {b : Byte} (hinp : s.inp = [b]) (id : SlotId) (pred : Sample) :
    effect (.writeState id.stream id.chan pred) s = require (b.toNat ≤ 88) .invalidStepIndex >>= fun _ =>
      .ok ({ s with slots := writeSlot s.slots id ⟨pred.signExtend 32, BitVec.ofNat 16 b.toNat⟩ }, []) := by
  have hlen : s.inp.length = 1 := by rw [hinp, List.length_singleton]
  simp only [effect, writeStateEffect, payloadIs_of_length hlen, slotOperand_slot, except_ok_bind, except_pure, hinp,
    memRead_singleton]

theorem exec_writeState {s : State} {b : Byte} (hinp : s.inp = [b]) (hb : b.toNat ≤ 88) (id : SlotId) (pred : Sample) :
    exec (.writeState id.stream id.chan pred) s = .next (succeeded []
      { s with slots := writeSlot s.slots id ⟨pred.signExtend 32, BitVec.ofNat 16 b.toNat⟩ }) := by
  apply exec_eq_succeeded
  rw [effect_writeState hinp, decide_eq_true hb, require_true, except_ok_bind]

/-- Settles O32: the byte passes its check, and the slot written holds the operand, sign-extended, and the byte. -/
theorem writeStateSetsOneSlot : Obligations.WriteStateSetsOneSlot := by
  intro s id pred b hinp hb
  refine ⟨writeSlot s.slots id ⟨pred.signExtend 32, BitVec.ofNat 16 b.toNat⟩, exec_writeState hinp hb id pred, ?_, ?_,
    fun j hj => readSlot_writeSlot_other _ _ hj.symm⟩
  · rw [readSlot_writeSlot_same]
    exact toInt_signExtend pred
  · rw [readSlot_writeSlot_same, BitVec.toNat_ofNat]
    omega

/-! ### READ_STATE (R152) -/

/-- The header of any state, legal or not: the predictor's low half, the index's low byte, and 0 (R104). -/
theorem headerEncode_eq (st : ChannelState) :
    headerEncode st = leBytes 2 (st.pred.toNat % 65536) ++ [BitVec.ofNat 8 st.idx.toNat, 0] := by
  have hlow : st.pred.extractLsb' 0 8 = BitVec.ofNat 8 (st.pred.toNat % 65536) := by
    apply BitVec.eq_of_toNat_eq
    rw [BitVec.extractLsb'_toNat, BitVec.toNat_ofNat, Nat.shiftRight_zero]
    omega
  have hhigh : st.pred.extractLsb' 8 8 = BitVec.ofNat 8 (st.pred.toNat % 65536 / 256) := by
    apply BitVec.eq_of_toNat_eq
    rw [BitVec.extractLsb'_toNat, BitVec.toNat_ofNat, Nat.shiftRight_eq_div_pow]
    omega
  rw [headerEncode, hlow, hhigh]
  rfl

theorem exec_readState {s : State} (hinp : s.inp = []) (id : SlotId) :
    exec (.readState id.stream id.chan) s = .next (succeeded (headerEncode (readSlot s.slots id)) s) := by
  apply exec_eq_succeeded
  simp only [effect, readStateEffect, payloadIs_of_length (List.length_eq_zero_iff.mpr hinp), slotOperand_slot,
    except_ok_bind, except_pure]

/-- Settles O33: OUT is the slot's header. -/
theorem readStateAnswersTheHeader : Obligations.ReadStateAnswersTheHeader := by
  intro s id hinp
  rw [exec_readState hinp, headerEncode_eq]
  rfl

/-! ### A chunk as EXPAND commands (R153) -/

/-- Each packed byte is two turns of `expandAll`, its low nibble's first. -/
theorem expandBytes_eq_expandAll (st : ChannelState) (bs : List Byte) :
    (expandBytes st bs).2 = expandAll st (nibblesOf bs) := by
  induction bs generalizing st with
  | nil => rfl
  | cons b bs ih => exact congrArg ((expandByte st b).2 ++ ·) (ih (expandByte st b).1)

/-- Settles O37: behind the leading sample, `decode_chunk` expands the packed bytes from the header's state. -/
theorem decodeChunkExpandsEachNibble : Obligations.DecodeChunkExpandsEachNibble := by
  intro policy c B st hlen hheader
  rw [decodeChunk_eq_ok hlen hheader, expandBytes_eq_expandAll]

end Sys2Proof.Machine
end

section
/-! PROOFS. 43_state_access.md R151 with 41_frame_codec.md R101, R110 and 42_interleave.md R141, R163: a step index out of range
raises. A decoder's loops can raise nothing else once the lengths are right, so one bad chunk decides. -/

namespace Sys2Proof.Machine

/-! ### A chunk's header -/

theorem memRead_byte_lt (B : List Byte) (off : Nat) : memRead B off 1 < 256 := by
  rw [memRead, slice]
  cases B.drop off with
  | nil => exact Nat.succ_pos _
  | cons b bs => simpa [leNat] using b.isLt

theorem headerDecode_error {policy : StepIndexPolicy} {B : List Byte} {e : ErrKind} :
    headerDecode policy B = .error e ↔ headerIndex policy (BitVec.ofNat 8 (memRead B 2 1)).toInt = .error e := by
  rw [headerDecode_eq_map]
  cases headerIndex policy (BitVec.ofNat 8 (memRead B 2 1)).toInt <;> simp

theorem headerIndex_raises {policy : StepIndexPolicy} {raw : Int} {e : ErrKind} (h : headerIndex policy raw = .error e) :
    e = .invalidStepIndex := by
  cases policy with
  | clamp => cases h
  | reject =>
    rw [headerIndex] at h
    split at h <;> cases h
    rfl

/-- Above 0x7F the byte reads as a negative number, which Reject does not take either. -/
theorem headerDecode_reject {B : List Byte} (h : 0x58 < memRead B 2 1) :
    headerDecode .reject B = .error .invalidStepIndex := by
  have hlt := memRead_byte_lt B 2
  refine headerDecode_error.mpr (if_pos ?_)
  rw [byte_toInt, BitVec.toNat_ofNat]
  split_ifs <;> omega

/-- Of the right length, a chunk raises what its header raises. -/
theorem decodeChunk_error {policy : StepIndexPolicy} {c : Cfg} {B : List Byte} {e : ErrKind} (hlen : B.length = chunkSize c) :
    decodeChunk policy (geometry c) B = .error e ↔ headerDecode policy B = .error e := by
  cases hheader : headerDecode policy B <;>
    simp only [decodeChunk, geometry_chunkSize, hlen, ne_eq, not_true_eq_false, if_false, hheader, Except.error.injEq,
      reduceCtorEq]

theorem decodeChunk_raises {policy : StepIndexPolicy} {c : Cfg} {B : List Byte} {e : ErrKind} (hlen : B.length = chunkSize c)
    (h : decodeChunk policy (geometry c) B = .error e) : e = .invalidStepIndex :=
  headerIndex_raises (headerDecode_error.mp ((decodeChunk_error hlen).mp h))

theorem decodeChunk_reject {c : Cfg} {B : List Byte} (hlen : B.length = chunkSize c) (h : 0x58 < memRead B 2 1) :
    decodeChunk .reject (geometry c) B = .error .invalidStepIndex :=
  (decodeChunk_error hlen).mpr (headerDecode_reject h)

/-! ### A container raises what a chunk of its whole blocks raises -/

theorem decodeSegment_error {policy : StepIndexPolicy} {g : Geometry} {C : List Byte} {i c : Nat} {e : ErrKind} :
    decodeSegment policy g C i c = .error e ↔
      tryMap (fun k => decodeChunk policy g (containerChunk g C i c k)) (List.range g.chunksPerInterleave) = .error e := by
  rw [decodeSegment]
  cases tryMap (fun k => decodeChunk policy g (containerChunk g C i c k)) (List.range g.chunksPerInterleave) <;> simp

theorem decodeBlock_error {policy : StepIndexPolicy} {g : Geometry} {C : List Byte} {i : Nat} {e : ErrKind} :
    decodeBlock policy g C i = .error e ↔ tryMap (decodeSegment policy g C i) (List.range g.channelCount) = .error e := by
  rw [decodeBlock]
  cases tryMap (decodeSegment policy g C i) (List.range g.channelCount) <;> simp

/-- Past the check of the tail, a container raises what its blocks raise (R125, R163). -/
theorem decodeContainer_error {p : Params} {g : Geometry} {C : List Byte} {e : ErrKind}
    (htail : p.tailPolicy = .ignore ∨ C.length % g.blockBytes = 0) :
    decodeContainer p g C = .error e ↔
      tryMap (decodeBlock p.stepIndexPolicy g C) (List.range (C.length / g.blockBytes)) = .error e := by
  have hpass : ¬(C.length % g.blockBytes ≠ 0 ∧ p.tailPolicy = .fault) := by
    rintro ⟨hne, hfault⟩
    exact htail.elim (fun hignore => by cases hfault.symm.trans hignore) hne
  rw [decodeContainer, if_neg hpass]
  cases tryMap (decodeBlock p.stepIndexPolicy g C) (List.range (C.length / g.blockBytes)) <;> simp

section WholeBlock

variable {policy : StepIndexPolicy} {cfg : Cfg} {C : List Byte} {i c k : Nat} {e : ErrKind}
  (hi : i < C.length / blockBytes cfg)
include hi

theorem containerChunk_length (hc : c < channelCount cfg) (hk : k < chunksPerInterleave cfg) :
    (containerChunk (geometry cfg) C i c k).length = chunkSize cfg :=
  slice_length ((chunk_end_le hi hc hk).trans (Nat.div_mul_le_self ..))

theorem decodeSegment_raises (hc : c < channelCount cfg) (h : decodeSegment policy (geometry cfg) C i c = .error e) :
    e = .invalidStepIndex := by
  obtain ⟨k, hk, hchunk⟩ := tryMap_error_mem (decodeSegment_error.mp h)
  exact decodeChunk_raises (containerChunk_length hi hc (List.mem_range.mp hk)) hchunk

theorem decodeBlock_raises (h : decodeBlock policy (geometry cfg) C i = .error e) : e = .invalidStepIndex := by
  obtain ⟨c, hc, hsegment⟩ := tryMap_error_mem (decodeBlock_error.mp h)
  exact decodeSegment_raises hi (List.mem_range.mp hc) hsegment

/-- Under Reject, an index byte above 0x58 in a chunk raises in its segment and so in its block. -/
theorem decodeBlock_reject (hc : c < channelCount cfg) (hk : k < chunksPerInterleave cfg)
    (hindex : 0x58 < memRead C (chunkOffset (geometry cfg) i c k + 2) 1) :
    decodeBlock .reject (geometry cfg) C i = .error .invalidStepIndex := by
  have hbyte : memRead (containerChunk (geometry cfg) C i c k) 2 1 = memRead C (chunkOffset (geometry cfg) i c k + 2) 1 :=
    congrArg leNat (slice_slice C ((by norm_num : 2 + 1 ≤ 4).trans (four_le_chunkSize cfg)))
  have hchunk : decodeChunk .reject (geometry cfg) (containerChunk (geometry cfg) C i c k) = .error .invalidStepIndex :=
    decodeChunk_reject (containerChunk_length hi hc hk) (hbyte ▸ hindex)
  have hsegment : decodeSegment .reject (geometry cfg) C i c = .error .invalidStepIndex :=
    decodeSegment_error.mpr (tryMap_eq_error
      (fun k hk _ => decodeChunk_raises (containerChunk_length hi hc (List.mem_range.mp hk))) (List.mem_range.mpr hk) hchunk)
  exact decodeBlock_error.mpr (tryMap_eq_error
    (fun c hc _ => decodeSegment_raises hi (List.mem_range.mp hc)) (List.mem_range.mpr hc) hsegment)

end WholeBlock

/-- Settles O21: WRITE_STATE's check fails; the header of DECODE_CHUNK's payload is rejected; and so is that of a chunk of the
container, which raises whichever bad chunk comes first. -/
theorem stepIndexOutOfRangeRaises : Obligations.StepIndexOutOfRangeRaises := by
  intro s id pred b0 b1 b2 rest t
  refine ⟨fun hb hinp => ?_, fun hb hvalid hreject hinp hlen => ?_, fun hvalid hreject htail hbad => ?_⟩
  · have hraise : effect (.writeState id.stream id.chan pred) s = .error .invalidStepIndex := by
      rw [effect_writeState hinp, decide_eq_false (Nat.not_le.mpr hb), require_false, except_error_bind]
    exact exec_eq_raised hraise
  · rw [← chunkSize_eq] at hlen
    have hindex : 0x58 < memRead s.inp 2 1 := by simpa [hinp, memRead, slice, leNat] using hb
    have hraise : effect .decodeChunk s = .error .invalidStepIndex := by
      simp only [effect, decodeChunkEffect, configured_valid hvalid, geometry_chunkSize, hlen, beq_self_eq_true, require_true,
        except_ok_bind, hreject, decodeChunk_reject hlen hindex, except_error_bind]
    exact exec_eq_raised hraise
  · obtain ⟨i, c, k, hi, hc, hk, hindex⟩ := hbad
    have hblock : decodeBlock s.params.stepIndexPolicy (geometry s.cfg) s.inp i = .error .invalidStepIndex :=
      hreject ▸ decodeBlock_reject hi hc hk hindex
    have hblocks := tryMap_eq_error (as := List.range (s.inp.length / blockBytes s.cfg))
      (fun i hi _ => decodeBlock_raises (List.mem_range.mp hi)) (List.mem_range.mpr hi) hblock
    have hraise : effect .decodeContainer s = .error .invalidStepIndex := by
      simp only [effect, decodeContainerEffect, configured_valid hvalid, except_ok_bind,
        (decodeContainer_error htail).mpr hblocks, except_error_bind]
    exact exec_eq_raised hraise

end Sys2Proof.Machine
end

section
/-! PROOFS. 70_reset_and_hazards.md R184, R185, R193: the command port over one step. An incomplete frame waits; the host's move
is taken, or refused when it sends too early; the port never holds more than one frame, nor a byte while a response is unread. -/

namespace Sys2Proof.Machine

/-! ### An incomplete frame -/

/-- A read that ends in the first `n` bytes does not see what was cut off behind them. -/
theorem memRead_take {off len n : Nat} (B : List Byte) (h : off + len ≤ n) : memRead (B.take n) off len = memRead B off len := by
  rw [memRead, slice, List.drop_take, List.take_take, Nat.min_eq_left (by omega)]
  rfl

/-- A frame that lacks a byte is not cut off the port: its length word has not arrived, or asks for more (R185). -/
theorem parseFrame_take_encodeFrame (h : Word) {payload : List Byte} {n : Nat} (hlen : payload.length < 2 ^ 32)
    (hn : n < 8 + payload.length) : parseFrame ((encodeFrame h payload).take n) = none := by
  have harrived : ((encodeFrame h payload).take n).length = n := by
    rw [List.length_take, encodeFrame_length]; omega
  rw [parseFrame, harrived]
  by_cases h8 : n < 8
  · rw [if_pos h8]
  · have hN : memRead ((encodeFrame h payload).take n) 4 4 = payload.length := by
      rw [memRead_take _ (Nat.not_lt.mp h8), encodeFrame_eq]
      exact memRead_leBytes_leBytes _ _ hlen
    rw [if_neg h8, hN, if_pos hn]

/-! ### The host's moves -/

theorem hostTurn_idle {s : State} (htodo : s.host.todo = []) : hostTurn s = .next s := by
  simp only [hostTurn, htodo]

/-- A send is taken when it sends nothing, or when no response is unread and the bytes stay within one frame. -/
theorem hostTurn_send {s : State} {bytes : List Byte} {todo : List HostMove} (htodo : s.host.todo = .send bytes :: todo)
    (hallowed : bytes = [] ∨ (s.tx = none ∧ overlong (s.rx ++ bytes) = false)) :
    hostTurn s = .next { s with rx := s.rx ++ bytes, host := { s.host with todo := todo } } := by
  simp only [hostTurn, htodo, hostSend]
  refine if_neg ?_
  rcases hallowed with rfl | ⟨htx, hone⟩
  · simp
  · simp [htx, hone]

/-- Any other send is refused by name. -/
theorem hostTurn_send_refused {s : State} {bytes : List Byte} {todo : List HostMove} (htodo : s.host.todo = .send bytes :: todo)
    (hbytes : bytes ≠ []) (hearly : s.tx.isSome = true ∨ overlong (s.rx ++ bytes) = true) :
    hostTurn s = .refused .frameBeforeResponseRead := by
  simp only [hostTurn, htodo, hostSend]
  exact if_pos (by simpa [hbytes] using hearly)

theorem hostTurn_read {s : State} {todo : List HostMove} {r : Response} (htodo : s.host.todo = .readResponse :: todo)
    (htx : s.tx = some r) :
    hostTurn s = .next { s with tx := none, host := { todo := todo, seen := s.host.seen ++ [r] } } := by
  simp only [hostTurn, htodo, htx]
  rfl

/-- With no response pending the host waits to read one. -/
theorem hostTurn_read_waits {s : State} {todo : List HostMove} (htodo : s.host.todo = .readResponse :: todo)
    (htx : s.tx = none) : hostTurn s = .next s := by
  simp only [hostTurn, htodo, htx]

/-- The host sends too early: bytes while a response is unread, or past the end of the frame on the port (R184). -/
def State.SendsTooEarly (s : State) : Prop :=
  ∃ bytes todo, s.host.todo = .send bytes :: todo ∧ bytes ≠ [] ∧ (s.tx.isSome = true ∨ overlong (s.rx ++ bytes) = true)

/-- The host's move is taken, unless it sends too early. -/
theorem hostTurn_next_or_refused (s : State) :
    (∃ t, hostTurn s = .next t) ∨ (hostTurn s = .refused .frameBeforeResponseRead ∧ s.SendsTooEarly) := by
  match htodo : s.host.todo with
  | [] => exact .inl ⟨_, hostTurn_idle htodo⟩
  | .send bytes :: todo =>
    by_cases hallowed : bytes = [] ∨ (s.tx = none ∧ overlong (s.rx ++ bytes) = false)
    · exact .inl ⟨_, hostTurn_send htodo hallowed⟩
    · obtain ⟨hbytes, hrefuse⟩ := not_or.mp hallowed
      have hearly : s.tx.isSome = true ∨ overlong (s.rx ++ bytes) = true := by
        rwa [not_and_or, ← ne_eq, ← Option.isSome_iff_ne_none, Bool.not_eq_false] at hrefuse
      exact .inr ⟨hostTurn_send_refused htodo hbytes hearly, bytes, todo, htodo, hbytes, hearly⟩
  | .readResponse :: todo =>
    match htx : s.tx with
    | none => exact .inl ⟨_, hostTurn_read_waits htodo htx⟩
    | some r => exact .inl ⟨_, hostTurn_read htodo htx⟩
  | .reset :: todo => exact .inl ⟨_, hostTurn_reset htodo⟩

/-! ### The port invariant -/

theorem portInv_of_rx_nil {s : State} (h : s.rx = []) : s.PortInv :=
  ⟨fun _ => h, by rw [h]; rfl⟩

/-- A port that is not overlong holds nothing behind a complete frame. -/
theorem rest_eq_nil_of_not_overlong {rx payload rest : List Byte} {h : Word} (hone : overlong rx = false)
    (hframe : parseFrame rx = some (h, payload, rest)) : rest = [] := by
  simpa [overlong, hframe] using hone

/-- No complete frame waits behind an unread response. -/
theorem State.PortInv.tx_eq_none {s : State} (hs : s.PortInv) {f : Word × List Byte × List Byte}
    (hframe : parseFrame s.rx = some f) : s.tx = none := by
  by_contra htx
  rw [hs.1 (Option.isSome_iff_ne_none.mpr htx)] at hframe
  cases hframe

theorem runHeader_total (h : Word) (s : State) : ∃ t, runHeader h s = .next t := by
  match hdec : decode h with
  | .ok i => rw [runHeader_eq_exec hdec]; exact exec_total i s
  | .error e => exact ⟨_, runHeader_eq_raised hdec s⟩

/-- A frame that has run leaves on the port the bytes that stood behind it. -/
theorem runFrame_rx {w : Word} {payload rest : List Byte} {s t : State} (h : runFrame w payload rest s = .next t) :
    t.rx = rest := by
  rcases (runFrame_cases h).2 with ⟨_, -, hexec⟩ | ⟨_, -, rfl⟩
  · rw [exec_rx hexec, acceptFrame_rx]
  · rfl

/-- A send puts bytes on the port only while no response is unread and one frame holds them; a read takes the response away. -/
theorem hostTurn_portInv {s t : State} (h : hostTurn s = .next t) (hs : s.PortInv) : t.PortInv := by
  obtain ⟨hunread, hone⟩ := hs
  rcases hostTurn_cases h with rfl | ⟨bytes, _, -, rfl | ⟨htx, hone'⟩, rfl⟩ | ⟨_, _, -, -, rfl⟩ | ⟨_, -, rfl⟩
  · exact ⟨hunread, hone⟩
  · simpa using And.intro hunread hone
  · exact ⟨fun hsome => by simp [htx] at hsome, hone'⟩
  · exact ⟨fun hsome => by simp at hsome, hone⟩
  · exact portInv_of_rx_nil (afterReset_rx _ _)

/-- A complete frame runs, and was all that the port held. -/
theorem step_frame_portInv {s : State} {w : Word} {payload rest : List Byte} (hs : s.PortInv)
    (hframe : parseFrame s.rx = some (w, payload, rest)) : ∃ t, step s = .next t ∧ t.PortInv := by
  obtain ⟨t, hrun⟩ := runHeader_total w (acceptFrame payload rest s)
  rw [← runFrame_eq_runHeader w payload rest (hs.tx_eq_none hframe)] at hrun
  have hempty : t.rx = [] := (runFrame_rx hrun).trans (rest_eq_nil_of_not_overlong hs.2 hframe)
  exact ⟨t, (step_eq_runFrame hframe).trans hrun, portInv_of_rx_nil hempty⟩

/-! ### The three statements -/

/-- Settles O54: no frame is cut off the port, and the host with no move left is idle. -/
theorem incompleteFrameWaits : Obligations.IncompleteFrameWaits := by
  intro s h payload n hlen hn hrx htodo
  have hframe : parseFrame s.rx = none := hrx ▸ parseFrame_take_encodeFrame h hlen hn
  rw [step_eq_hostTurn hframe, hostTurn_idle htodo]

/-- Settles O56: the step is the host's turn, its move the read. -/
theorem readingTakesTheResponse : Obligations.ReadingTakesTheResponse := by
  intro s todo r hframe htodo htx
  rw [step_eq_hostTurn hframe, hostTurn_read htodo htx]

/-- Settles O59: a complete frame always runs and empties the port; without one it is the host's turn, which is taken and keeps
the port invariant, or is a send too early. -/
theorem onlyAnEarlyHostIsRefused : Obligations.OnlyAnEarlyHostIsRefused := by
  refine ⟨fun s hs => ?_, fun s bytes todo hframe htodo hallowed => ?_⟩
  · match hframe : parseFrame s.rx with
    | some (_, _, _) => exact .inl (step_frame_portInv hs hframe)
    | none =>
      rw [step_eq_hostTurn hframe]
      rcases hostTurn_next_or_refused s with ⟨t, hturn⟩ | hrefused
      · exact .inl ⟨t, hturn, hostTurn_portInv hturn hs⟩
      · exact .inr hrefused
  · rw [step_eq_hostTurn hframe, hostTurn_send htodo hallowed]

end Sys2Proof.Machine
end
